-- ==== Sys2Proof/Word.lean ====
section
/-! DEFINITION. The words of FTG (spec/00_scope.md R9): a port access and every register are 64 bits, a command
word is 32 bits, a port address is 29 bits; the port's byte lanes are 8 bits (spec/20_memory.md R64). -/

namespace Sys2Proof

/-- One byte lane of the port (R64). -/
abbrev Byte := BitVec 8

/-- A 32-bit command word (R9, R91). -/
abbrev Command := BitVec 32

/-- A 64-bit register or the data of one port access (R9, R21). -/
abbrev Reg := BitVec 64

/-- A 29-bit byte address of the host port (R60). -/
abbrev PortAddr := BitVec 29

end Sys2Proof
end

