-- ==== Sys2Proof/Config.lean ====
section
/-! DEFINITION. What an implementation of FTG fixes: the OPEN parameters `NMAX` (spec/00_scope.md R7) and `NUM`
(R8), as plain data, so that a state holds them and a statement about every state is a statement about every
implementation. `FTG_BASE`, the third open parameter, lies outside the block (log 8). -/

namespace Sys2Proof.Config

/-- The largest value the spec allows `NMAX` to have (R7: `1 <= NMAX <= 24`). -/
def nmaxLimit : Nat := 24

/-- The three functions of the numerics record `NUM` (R8): window sample, twiddle real part, twiddle imaginary
part. -/
inductive NumFn where
  | win
  | twre
  | twim
  deriving DecidableEq, Repr

/-- One place at which an implementation's `NUM` differs from the reference instance: the function, its two
arguments, and the difference in units of 10^-10 (R8, R126). -/
structure NumDev where
  fn    : NumFn
  len   : Nat
  idx   : Nat
  delta : Int
  deriving DecidableEq, Repr

/-- The parameters of one implementation (R7, R8). `numDev = []` is the reference instance of spec/40_numerics.md
R123 and R124. -/
structure Params where
  nmax   : Nat
  numDev : List NumDev
  deriving DecidableEq, Repr

/-- The parameters `State.reset` is given. DESIGN CHOICE (log 2, log 3): `NMAX = 24`, the largest the spec allows,
and the reference instance of `NUM`. -/
def Params.initial : Params := { nmax := 24, numDev := [] }

end Sys2Proof.Config
end

