-- ==== Sys2Proof/Syntax.lean ====
section
/-! DEFINITION. The eight commands of FTG, one constructor per row of spec/opcode_table.json
(spec/30_encoding.md R94). An operand is the mathematical integer the format denotes (R93): a signed exponent in
format N, an unsigned index in format I, nothing in format Z. -/

namespace Sys2Proof

/-- A command of FTG (R94). -/
inductive Instr where
  /-- `DERIVE n`: derive the lengths from the exponent (spec/41_size_derivation.md R141). -/
  | derive (n : Int)
  /-- `GENWIN`: fill the window table (spec/42_window.md R151). -/
  | genwin
  /-- `GENTW`: fill the twiddle table (spec/43_twiddle.md R161). -/
  | gentw
  /-- `GENREV`: fill the bit-reversal table (spec/44_bit_reversal.md R171). -/
  | genrev
  /-- `GENALL n`: derive the sizes and fill all three tables (spec/45_generate_all.md R186). -/
  | genall (n : Int)
  /-- `WSAMP idx`: one window sample (spec/42_window.md R155). -/
  | wsamp (idx : Nat)
  /-- `TWSAMP idx`: one twiddle pair (spec/43_twiddle.md R165). -/
  | twsamp (idx : Nat)
  /-- `BITREV idx`: reverse one index (spec/44_bit_reversal.md R175). -/
  | bitrev (idx : Nat)
  deriving DecidableEq, Repr

/-- The opcode names, one per row of the opcode table (R94). -/
inductive Op where
  | derive
  | genwin
  | gentw
  | genrev
  | genall
  | wsamp
  | twsamp
  | bitrev
  deriving DecidableEq, Repr

/-- The three readings of `IMM` (R92). -/
inductive Format where
  /-- `IMM` must be 0. -/
  | z
  /-- `IMM` is a signed exponent. -/
  | n
  /-- `IMM` is an unsigned index. -/
  | i
  deriving DecidableEq, Repr

end Sys2Proof
end

