-- ==== Sys2Proof/WellFormed.lean ====
section
/-! DEFINITION. Which commands can be written down (the operand ranges of spec/30_encoding.md R93, which the assembler
of R111 enforces) and which parameters an implementation may have (spec/00_scope.md R7). -/

namespace Sys2Proof

/-- The range of a format N operand: `-8388608 <= n <= 8388607` (R93). -/
def exponentFits (n : Int) : Bool := decide (-8388608 ≤ n ∧ n ≤ 8388607)

/-- The range of a format I operand: `0 <= idx <= 16777215` (R93). -/
def indexFits (idx : Nat) : Bool := decide (idx ≤ 16777215)

/-- The operand of a command lies in the range of its format (R93). -/
def Instr.wf : Instr → Bool
  | .derive n   => exponentFits n
  | .genwin     => true
  | .gentw      => true
  | .genrev     => true
  | .genall n   => exponentFits n
  | .wsamp idx  => indexFits idx
  | .twsamp idx => indexFits idx
  | .bitrev idx => indexFits idx

/-- `1 <= NMAX <= 24` (R7). What `NUM` must satisfy is `NumOK` (Machine/Ideal.lean), a property of real numbers. -/
def Config.Params.wf (p : Config.Params) : Bool := decide (1 ≤ p.nmax ∧ p.nmax ≤ Config.nmaxLimit)

end Sys2Proof
end

