-- ==== Sys2Proof/Decode.lean ====
section
/-! DEFINITION. The decoder and the encoder of command words, both written from one opcode table
(spec/30_encoding.md R90 to R94, R100 to R102). The decoder is total: every 64-bit value selects exactly one command or
is illegal, with the reason. -/

namespace Sys2Proof

/-- One row of the opcode map (R94): a word `cmd` selects the row when `cmd AND mask = pattern`. -/
structure Row where
  op      : Op
  format  : Format
  pattern : Command
  mask    : Command
  deriving DecidableEq, Repr

/-- Why a value written to `CMD` is illegal: the three cases of R100, in its order. -/
inductive Illegal where
  /-- (a) a bit of `[63:32]` is set. -/
  | upperHalf
  /-- (b) `OP` is not one of the eight assigned. -/
  | unassignedOp
  /-- (c) `OP` is 0x02, 0x03 or 0x04 and `IMM` is not 0. -/
  | operandInZ
  deriving DecidableEq, Repr

/-- What the decoder makes of a value written to `CMD` (R90). -/
inductive Decoded where
  | command (i : Instr)
  | illegal (why : Illegal)
  deriving DecidableEq, Repr

/-- The row of each opcode name, as the table of R94 writes it. -/
def row : Op → Row
  | .derive => ⟨.derive, .n, 0x01000000#32, 0xFF000000#32⟩
  | .genwin => ⟨.genwin, .z, 0x02000000#32, 0xFFFFFFFF#32⟩
  | .gentw  => ⟨.gentw,  .z, 0x03000000#32, 0xFFFFFFFF#32⟩
  | .genrev => ⟨.genrev, .z, 0x04000000#32, 0xFFFFFFFF#32⟩
  | .genall => ⟨.genall, .n, 0x05000000#32, 0xFF000000#32⟩
  | .wsamp  => ⟨.wsamp,  .i, 0x11000000#32, 0xFF000000#32⟩
  | .twsamp => ⟨.twsamp, .i, 0x12000000#32, 0xFF000000#32⟩
  | .bitrev => ⟨.bitrev, .i, 0x13000000#32, 0xFF000000#32⟩

/-- The opcode map (R94). -/
def opcodeTable : List Row :=
  [row .derive, row .genwin, row .gentw, row .genrev, row .genall, row .wsamp, row .twsamp, row .bitrev]

/-- `(cmd AND row.mask) = row.match` (R90). -/
def Row.selects (r : Row) (cmd : Command) : Bool := (cmd &&& r.mask) == r.pattern

/-- The field `OP = cmd[31:24]` (R91). -/
def opField (cmd : Command) : BitVec 8 := cmd.extractLsb' 24 8

/-- The field `IMM = cmd[23:0]` (R91). -/
def immField (cmd : Command) : BitVec 24 := cmd.extractLsb' 0 24

/-- The format N reading of `IMM`: two's complement (R93). -/
def signedImm (imm : BitVec 24) : Int := imm.toInt

/-- The format I reading of `IMM`: zero-extended (R93). -/
def unsignedImm (imm : BitVec 24) : Nat := imm.toNat

/-- The command a row stands for, with its operand assembled from `IMM` (R93). -/
def instrOf : Op → BitVec 24 → Instr
  | .derive, imm => .derive (signedImm imm)
  | .genwin, _   => .genwin
  | .gentw,  _   => .gentw
  | .genrev, _   => .genrev
  | .genall, imm => .genall (signedImm imm)
  | .wsamp,  imm => .wsamp (unsignedImm imm)
  | .twsamp, imm => .twsamp (unsignedImm imm)
  | .bitrev, imm => .bitrev (unsignedImm imm)

/-- The reason a word that selects no row is illegal: R100 (c) for an assigned format Z opcode, (b) otherwise. -/
def illegalReason (cmd : Command) : Illegal :=
  if opField cmd = 0x02#8 ∨ opField cmd = 0x03#8 ∨ opField cmd = 0x04#8 then .operandInZ else .unassignedOp

/-- Taking a command: the value `v` written to `CMD` (R90). -/
def decode (v : Reg) : Decoded :=
  if v.extractLsb' 32 32 ≠ 0#32 then .illegal .upperHalf
  else
    match opcodeTable.find? (fun r => r.selects (v.extractLsb' 0 32)) with
    | some r => .command (instrOf r.op (immField (v.extractLsb' 0 32)))
    | none   => .illegal (illegalReason (v.extractLsb' 0 32))

/-- The opcode name of a command. -/
def Instr.op : Instr → Op
  | .derive _ => .derive
  | .genwin   => .genwin
  | .gentw    => .gentw
  | .genrev   => .genrev
  | .genall _ => .genall
  | .wsamp _  => .wsamp
  | .twsamp _ => .twsamp
  | .bitrev _ => .bitrev

/-- The 24-bit immediate of a command (R111): the two's-complement image of the operand in format N, the operand
itself in format I, 0 in format Z. -/
def Instr.imm : Instr → BitVec 24
  | .derive n   => BitVec.ofInt 24 n
  | .genwin     => 0#24
  | .gentw      => 0#24
  | .genrev     => 0#24
  | .genall n   => BitVec.ofInt 24 n
  | .wsamp idx  => BitVec.ofNat 24 idx
  | .twsamp idx => BitVec.ofNat 24 idx
  | .bitrev idx => BitVec.ofNat 24 idx

/-- The command word `{OP, IMM}` of a command (R111), from its row of the opcode table. -/
def encode (i : Instr) : Command := (row i.op).pattern ||| i.imm.setWidth 32

/-- The 64-bit value a host writes to `CMD` to issue a command: `zext_64(word)` (R112). -/
def cmdValue (i : Instr) : Reg := (encode i).setWidth 64

/-- The command the decoder reads from an instruction word of spec/opcode_table.json: bits above `nbits` are 0, and
the word stands in the low half of the 64-bit value written to `CMD` (R90). -/
def decodeTableWord (nbits w : Nat) : Option Instr :=
  match decode (BitVec.ofNat 64 (w % 2 ^ nbits)) with
  | .command i => some i
  | .illegal _ => none

end Sys2Proof
end

