-- ==== Sys2Proof/Machine/State.lean ====
section
/-! DEFINITION. The state of FTG (spec/10_state.md R20 to R51) and its value at reset (R50), with the host's side of
the one port: the operations the host has still to perform and the answer to the last one (spec/20_memory.md R60). -/

namespace Sys2Proof.Machine

/-- `STATUS.STATE` (R41). Code 3 never occurs, so it has no constructor. -/
inductive RunState where
  /-- No command has been taken since reset. -/
  | idle
  /-- The last command taken completed. -/
  | done
  /-- A command faulted. -/
  | fault
  deriving DecidableEq, Repr

/-- `STATUS.CAUSE` (R41, spec/60_exceptions.md R201). Codes 4 to 15 never occur. -/
inductive Cause where
  | none
  | invalidInvocation
  | invalidExponent
  /-- Reserved by the spec and never written (R204). -/
  | ioFailure
  deriving DecidableEq, Repr

/-- The bytes of the table apertures that hold a value, keyed by port byte address (spec/20_memory.md R62 to R64),
addresses strictly rising. An address that is not listed has no value: the contents are unspecified (spec/10_state.md
R33, spec/93_implementation_defined.md U9). -/
abbrev Memory := List Host.Cell

/-- One operation of the host: a port access of any width and address (spec/20_memory.md R60, R66), or the hardware
reset, which is no port access (spec/30_encoding.md R112, spec/70_reset_and_hazards.md R230). The width is in bytes. -/
inductive HostOp where
  | read (addr : PortAddr) (width : Nat)
  | write (addr : PortAddr) (width : Nat) (v : Reg)
  | hardReset
  deriving DecidableEq, Repr

/-- The port's answer to the last host operation (spec/00_scope.md R12, spec/70_reset_and_hazards.md R251). -/
inductive PortResp where
  /-- No access yet, or the last operation was the hardware reset. -/
  | none
  /-- A write was acknowledged. -/
  | ack
  /-- A read returned this value. -/
  | data (v : Reg)
  /-- The access was refused (spec/20_memory.md R70). -/
  | accessFault
  deriving DecidableEq, Repr

/-- The whole state (R20). `regN` to `res1` are the data registers `x[0]` to `x[4]` (R21); `mem` holds `WIN`, `TW` and
`REV` (R30 to R32); `params` is the constant `CAP` and the open parameter `NUM` (R43, spec/00_scope.md R7, R8); `script`
and `resp` are the host's side of the port and no registers of the block (log 4, log 5). -/
structure State where
  regN     : Reg
  regL     : Reg
  regM     : Reg
  res0     : Reg
  res1     : Reg
  runState : RunState
  cause    : Cause
  wv       : Bool
  tv       : Bool
  rv       : Bool
  finfo    : Reg
  mem      : Memory
  params   : Config.Params
  script   : List HostOp
  resp     : PortResp
  deriving DecidableEq, Repr

/-- Why the model stops. Every fault the spec gives FTG is a next state, so this one reason is the model's own. -/
inductive Fault where
  /-- Raised by a port read (`Machine.hostStep`) that spec/20_memory.md R68 admits but whose element the memory does not
  list: spec/10_state.md R33 and spec/20_memory.md R70 forbid inventing a value. Safe; no state that meets `Inv`
  (Safety.lean) raises it (log 7). -/
  | unspecifiedCell
  deriving DecidableEq, Repr

/-- Why an instruction has no meaning. -/
inductive Refusal where
  /-- Raised by an arm of `exec` that has no meaning yet; safe. No arm of this model raises it. -/
  | notModelled (mnemonic : String)
  deriving DecidableEq, Repr

/-- The machine right after reset (R50). `params`, `script` and `resp` are DESIGN CHOICES (log 2 to 5); every other
value is R50's. -/
def State.reset : State where
  regN     := 0#64
  regL     := 1#64
  regM     := 0#64
  res0     := 0#64
  res1     := 0#64
  runState := .idle
  cause    := .none
  wv       := false
  tv       := false
  rv       := false
  finfo    := 0#64
  mem      := []
  params   := Config.Params.initial
  script   := []
  resp     := .none

end Sys2Proof.Machine
end

