-- ==== Sys2Proof/Machine/Ops.lean ====
section
/-! DEFINITION. The named operations over memory and registers: table bytes and elements (spec/20_memory.md R63 to
R65), the data registers (spec/10_state.md R21), engine fault entry (spec/60_exceptions.md R210) and reset (R213,
spec/10_state.md R50). -/

namespace Sys2Proof.Machine

/-! ### Bytes and elements -/

/-- Addresses strictly rising: the canonical form of the memory. No entry could equal what an unlisted address reads
as, because an unlisted address has no value. -/
abbrev Memory.wf (m : Memory) : Prop := m.Pairwise (fun c d => c.1 < d.1)

/-- The byte at a port address, if it has a value. -/
def Memory.read : Memory → Nat → Option Byte
  | [], _     => none
  | c :: m, a => if c.1 = a then some c.2 else Memory.read m a

/-- Consecutive bytes as memory cells. -/
def Memory.cells : Nat → List Byte → Memory
  | _, []         => []
  | base, b :: bs => (base, b) :: Memory.cells (base + 1) bs

/-- Write consecutive bytes from `base` on. -/
def Memory.store (m : Memory) (base : Nat) (bs : List Byte) : Memory :=
  m.filter (fun c => decide (c.1 < base)) ++
    (Memory.cells base bs ++ m.filter (fun c => decide (base + bs.length ≤ c.1)))

/-- The eight byte lanes of a 64-bit value, lane `j` being bits `[8j+7 : 8j]` (R64). -/
def bytesOf (v : Reg) : List Byte := (List.range 8).map (fun j => v.extractLsb' (8 * j) 8)

/-- The 64-bit value of eight byte lanes, the first in the least significant bits (R64). -/
def ofBytes : List Byte → Reg
  | []      => 0#64
  | b :: bs => b.setWidth 64 ||| (ofBytes bs <<< 8)

/-- `k` consecutive bytes, if each has a value. -/
def Memory.readBytes (m : Memory) (a : Nat) : Nat → Option (List Byte)
  | 0     => some []
  | k + 1 =>
    match Memory.read m a, Memory.readBytes m (a + 1) k with
    | some b, some bs => some (b :: bs)
    | _, _            => none

/-- The 64-bit element at a port address, if it has a value (R63, R64). -/
def Memory.read64 (m : Memory) (a : Nat) : Option Reg := (Memory.readBytes m a 8).map ofBytes

/-- Write consecutive 64-bit elements from `base` on. -/
def Memory.storeElems (m : Memory) (base : Nat) (es : List Reg) : Memory := Memory.store m base (es.flatMap bytesOf)

/-- Port address of `WIN[i]` (R62, R63). -/
def winAddr (i : Nat) : Nat := 0x08000000 + 8 * i

/-- Port address of one half of pair `k` of `TW`: the real part at the lower address, the imaginary part at the higher
(R62, R63, R65). -/
def twAddr (k : Nat) (im : Bool) : Nat := 0x10000000 + 16 * k + (if im then 8 else 0)

/-- Port address of `REV[i]` (R62, R63). -/
def revAddr (i : Nat) : Nat := 0x18000000 + 8 * i

/-- `tc64(WIN[i])`, if the cell has a value (spec/00_scope.md R11). -/
def State.winElem (s : State) (i : Nat) : Option Reg := s.mem.read64 (winAddr i)

/-- `tc64(TW[k].re)` (`im = false`) or `tc64(TW[k].im)` (`im = true`), if the cell has a value. -/
def State.twElem (s : State) (k : Nat) (im : Bool) : Option Reg := s.mem.read64 (twAddr k im)

/-- `zext_64(REV[i])`, if the cell has a value. -/
def State.revElem (s : State) (i : Nat) : Option Reg := s.mem.read64 (revAddr i)

/-! ### Updates of the state -/

/-- The data register number `i` (spec/10_state.md R21, spec/00_scope.md R11). -/
def State.x (s : State) : Fin 5 → Reg
  | 0 => s.regN
  | 1 => s.regL
  | 2 => s.regM
  | 3 => s.res0
  | 4 => s.res1

/-- Write the three registers of the size derivation together (spec/10_state.md R24). -/
def State.setSizes (s : State) (n l m : Reg) : State := { s with regN := n, regL := l, regM := m }

/-- Write the two result registers together (spec/10_state.md R26). -/
def State.setResults (s : State) (r0 r1 : Reg) : State := { s with res0 := r0, res1 := r1 }

/-- Replace the memory. -/
def State.setMem (s : State) (m : Memory) : State := { s with mem := m }

/-- Fill the window table from index 0 (spec/42_window.md R151). -/
def State.storeWin (s : State) (es : List Reg) : State := s.setMem (s.mem.storeElems (winAddr 0) es)

/-- Fill the twiddle table from pair 0, real part first (spec/43_twiddle.md R161). -/
def State.storeTw (s : State) (es : List Reg) : State := s.setMem (s.mem.storeElems (twAddr 0 false) es)

/-- Fill the bit-reversal table from index 0 (spec/44_bit_reversal.md R171). -/
def State.storeRev (s : State) (es : List Reg) : State := s.setMem (s.mem.storeElems (revAddr 0) es)

/-- All table contents become unspecified: no cell has a value any more (spec/10_state.md R33,
spec/93_implementation_defined.md U9; DEDUCED, log 6). -/
def State.forgetTables (s : State) : State := s.setMem []

/-- Answer the host. -/
def State.respond (s : State) (r : PortResp) : State := { s with resp := r }

/-- The host's remaining operations. -/
def State.setScript (s : State) (ops : List HostOp) : State := { s with script := ops }

/-! ### Engine fault and reset -/

/-- What an engine fault writes, and nothing else (spec/60_exceptions.md R210): `v` is the 64-bit value written to
`CMD`. -/
def State.raise (s : State) (c : Cause) (v : Reg) : State := { s with runState := .fault, cause := c, finfo := v }

/-- Reset, the only way out of `FAULT` (spec/60_exceptions.md R213): every piece of state takes its value of
spec/10_state.md R50. `CAP` is a constant (R43) and the host's side of the port is not the block's state. -/
def State.toReset (s : State) : State :=
  { State.reset with params := s.params, script := s.script, resp := s.resp }

end Sys2Proof.Machine
end

