-- ==== Sys2Proof/Machine/Flags.lean ====
section
/-! DEFINITION. The `STATUS` register: its fields' codes and composition (spec/10_state.md R41), and every event that
writes `WV`, `TV`, `RV` and `STATE` (R46). -/

namespace Sys2Proof.Machine

/-- The code of `STATUS.STATE` (R41). -/
def RunState.code : RunState → Nat
  | .idle  => 0
  | .done  => 1
  | .fault => 2

/-- The code of `STATUS.CAUSE` (R41, spec/60_exceptions.md R201). -/
def Cause.code : Cause → Nat
  | .none              => 0
  | .invalidInvocation => 1
  | .invalidExponent   => 2
  | .ioFailure         => 3

/-- One flag as a bit. -/
def flagBit (b : Bool) : Nat := if b then 1 else 0

/-- `STATUS` as the host reads it: `STATE` [1:0], `WV` [2], `TV` [3], `RV` [4], `CAUSE` [11:8], every other bit 0
(R41, R47). -/
def State.statusWord (s : State) : Reg :=
  BitVec.ofNat 64
    (s.runState.code + 4 * flagBit s.wv + 8 * flagBit s.tv + 16 * flagBit s.rv + 256 * s.cause.code)

/-- A command completes: `STATE <- DONE` (R46). -/
def State.complete (s : State) : State := { s with runState := .done }

/-- `WV <- 1` (R46). -/
def State.validateWin (s : State) : State := { s with wv := true }

/-- `TV <- 1` (R46). -/
def State.validateTw (s : State) : State := { s with tv := true }

/-- `RV <- 1` (R46). -/
def State.validateRev (s : State) : State := { s with rv := true }

/-- `WV, TV, RV <- 0`: no table is valid, and the contents of the three tables are unspecified from here on
(R33, R46; log 6). -/
def State.invalidateTables (s : State) : State := { s.forgetTables with wv := false, tv := false, rv := false }

end Sys2Proof.Machine
end

