-- ==== Sys2Proof/Machine/Operands.lean ====
section
/-! DEFINITION. The operand forms: the implicit register operands (spec/10_state.md R27, spec/41_size_derivation.md
R140) and the operand tests that raise `InvalidExponent` (spec/60_exceptions.md R203). -/

namespace Sys2Proof.Machine

/-- The register `N` read as an integer. -/
def State.nVal (s : State) : Nat := s.regN.toNat

/-- The register `L` read as an integer. -/
def State.lVal (s : State) : Nat := s.regL.toNat

/-- The register `M` read as an integer. -/
def State.mVal (s : State) : Nat := s.regM.toNat

/-- `DERIVE n` raises `InvalidExponent`: `n < 0 or n > NMAX` (R203, spec/41_size_derivation.md R141). -/
def deriveRejects (p : Config.Params) (n : Int) : Bool := decide (n < 0 ∨ (p.nmax : Int) < n)

/-- `GENALL n` raises `InvalidExponent`: `n < 1 or n > NMAX` (R203, spec/45_generate_all.md R186). -/
def genallRejects (p : Config.Params) (n : Int) : Bool := decide (n < 1 ∨ (p.nmax : Int) < n)

/-- `GENWIN` and `WSAMP` raise `InvalidExponent`: `L <= 1` (R203, spec/42_window.md R152). -/
def State.windowUndefined (s : State) : Bool := decide (s.lVal ≤ 1)

/-- The input length `1 << n` (spec/41_size_derivation.md R141). -/
def inputLength (n : Nat) : Nat := 1 <<< n

/-- The output length `(1 << n) >> 1` (spec/41_size_derivation.md R141, R143). -/
def outputLength (n : Nat) : Nat := inputLength n >>> 1

end Sys2Proof.Machine
end

