-- ==== Sys2Proof/Machine/BitReversal.lean ====
section
/-! DEFINITION. The bit-reversal index permutation engine: `GENREV` and `BITREV` (spec/44_bit_reversal.md R171 to
R175). -/

namespace Sys2Proof.Machine

/-- One iteration of the loop of R172 at `bit_position = b`. -/
def revStep (i N rev b : Nat) : Nat := if i.testBit b then rev ||| (1 <<< (N - 1 - b)) else rev

/-- `reverseBits(i, N)`: the loop over `bit_position in 0 .. N-1` (R172). -/
def reverseBits (i N : Nat) : Nat := (List.range N).foldl (revStep i N) 0

/-- `reverseBits(0, N) .. reverseBits(L-1, N)` in index order, as table cells (R171). -/
def revTable (L N : Nat) : List Reg := (List.range L).map (fun i => BitVec.ofNat 64 (reverseBits i N))

/-- `GENREV` (R171, R174): no fault. -/
def execGenrev (s : State) : Host.Outcome State Fault Refusal :=
  .next (s.storeRev (revTable s.lVal s.nVal)).validateRev.complete

/-- `BITREV idx` (R175): no fault; bits of `idx` at positions `N` and above are ignored. -/
def execBitrev (idx : Nat) (s : State) : Host.Outcome State Fault Refusal :=
  .next (s.setResults (BitVec.ofNat 64 (reverseBits idx s.nVal)) 0#64).complete

end Sys2Proof.Machine
end

