-- ==== Sys2Proof/Machine/Numerics.lean ====
section
/-! DEFINITION. The numerics of spec/40_numerics.md, in integers only. The reference instance (R123, R124) is the
quantised ideal value itself (R121, R122): it is evaluated in fixed point with a known error bound, at 128 fraction bits
where the enclosure settles the quantised value, and otherwise with so many that no tie lies within the error. The spec
leaves the evaluation open (R132 is informative): the method is DESIGN CHOICE (log 1). -/

namespace Sys2Proof.Machine

/-- `SCALE = 10^10`: one unit of a Q10 value is 10^-10 (R120). -/
def SCALE : Nat := 10000000000

/-- `tc64(z)`, the 64-bit two's-complement image (spec/00_scope.md R10). -/
def tc64 (z : Int) : Reg := BitVec.ofInt 64 z

/-- The quantiser on the rational number `num / den`, `den > 0` (R122): the integer nearest to `SCALE * num / den`, the
even one of two equally near. -/
def q10 (num : Int) (den : Nat) : Int :=
  let x := num * SCALE
  let f := x / (den : Int)
  let r := 2 * (x - f * den)
  if r < den then f else if (den : Int) < r then f + 1 else if f % 2 = 0 then f else f + 1

/-! ### `π` and the cosine of a rational part of a turn, in units of 2^-p -/

/-- Gregory's series from its term `m` on, without the factor `q^-(2m)`: `1/(2m+1) - 1/((2m+3) q^2) + ...`, `k` terms. -/
def arctanTail (p q : Nat) : Nat → Nat → Int
  | 0, _     => 0
  | k + 1, m => 2 ^ p / (2 * m + 1 : Nat) - arctanTail p q k (m + 1) / (q ^ 2 : Nat)

/-- `arctan(1/q)`, for `q >= 5`. -/
def arctanInv (p q : Nat) : Int := arctanTail p q (p / 4 + 1) 0 / (q : Int)

/-- `π`, by Machin's formula. -/
def piFix (p : Nat) : Int := 4 * (4 * arctanInv p 5 - arctanInv p 239)

/-- The cosine series from its term `m` on, without the factor `x^(2m)/(2m)!`: `1 - x^2/((2m+1)(2m+2)) + ...`, `k` terms;
`y` is the square of the angle, in units of 2^-2p. -/
def cosTail (p : Nat) (y : Int) : Nat → Nat → Int
  | 0, _     => 0
  | k + 1, m => 2 ^ p - y * cosTail p y k (m + 1) / (4 ^ p * ((2 * m + 1) * (2 * m + 2)) : Nat)

/-- The cosine of an angle of at most 1. -/
def cosSmall (p : Nat) (x : Int) : Int := cosTail p (x * x) (p / 4 + 2) 0

/-- The cosine of twice the angle: `2c^2 - 1`. -/
def cosDouble (p : Nat) (c : Int) : Int := 2 * c * c / 2 ^ p - 2 ^ p

/-- `cos(2π a/d)`: reduced by whole turns, 1 at no turn, else from an eighth of the angle by three doublings. -/
def cosTurn (p a d : Nat) : Int :=
  if a % d = 0 then 2 ^ p
  else cosDouble p (cosDouble p (cosDouble p (cosSmall p (piFix p * (a % d : Nat) / (4 * d : Nat)))))

/-- `sin(2π a/d) = cos(2π (a/d + 3/4))`. -/
def sinTurn (p a d : Nat) : Int := cosTurn p (4 * a + 3 * d) (4 * d)

/-- How many units of 2^-p `cosTurn` and `sinTurn` may be off, for `p >= 64`. -/
def turnError : Nat := 1024

/-! ### The reference instance and `NUM` -/

/-- `Wexact(L, i)` in units of `1 / (100000 * 2^p)`, with `D = L - 1` and the four coefficients of R121. -/
def winFix (p L i : Nat) : Int :=
  35875 * 2 ^ p - 48829 * cosTurn p i (L - 1) + 14128 * cosTurn p (2 * i) (L - 1) - 1168 * cosTurn p (3 * i) (L - 1)

/-- The quantised value is the same at both ends of the enclosure `num/den ± slack/den` (R132). -/
def settles (num : Int) (slack den : Nat) : Bool := q10 (num - slack) den == q10 (num + slack) den

/-- So many fraction bits that for a fraction `a/d` of a turn the error lies below the distance of the ideal value from
every tie: that distance, times `2 * SCALE`, is an eigenvalue of a `d` by `d` matrix of integers with an odd determinant
and entries below 2^37. -/
def exactBits (d : Nat) : Nat := d * (d + 40) + 64

/-- The quantised value of a quantity known at every precision `p` to within `turnError * c` in units of
`1 / (c * 2^p)`, and whose ties are ruled out by `exactBits d`. -/
def q10Fix (num : Nat → Int) (c d : Nat) : Int :=
  if settles (num 128) (turnError * c) (c * 2 ^ 128) then q10 (num 128) (c * 2 ^ 128)
  else q10 (num (exactBits d)) (c * 2 ^ exactBits d)

/-- The reference window sample (R123), for `L >= 2`. -/
def refWin (L i : Nat) : Int := q10Fix (fun p => winFix p L i) 100000 (L - 1)

/-- The reference twiddle real part (R124), for `L >= 1`. -/
def refTwre (L k : Nat) : Int := q10Fix (fun p => cosTurn p k L) 1 L

/-- The reference twiddle imaginary part (R124), for `L >= 1`: `+sin`. -/
def refTwim (L k : Nat) : Int := q10Fix (fun p => sinTurn p k L) 1 (4 * L)

/-- How far an implementation's `NUM` lies from the reference instance at one place (spec/00_scope.md R8): the first
entry of the list for that place, else 0. -/
def numDelta (p : Config.Params) (f : Config.NumFn) (L i : Nat) : Int :=
  match p.numDev.find? (fun d => decide (d.fn = f ∧ d.len = L ∧ d.idx = i)) with
  | some d => d.delta
  | none   => 0

/-- `NUM.win(L, i)` (spec/00_scope.md R8). -/
def numWin (p : Config.Params) (L i : Nat) : Int := refWin L i + numDelta p .win L i

/-- `NUM.twre(L, k)` (spec/00_scope.md R8). -/
def numTwre (p : Config.Params) (L k : Nat) : Int := refTwre L k + numDelta p .twre L k

/-- `NUM.twim(L, k)` (spec/00_scope.md R8). -/
def numTwim (p : Config.Params) (L k : Nat) : Int := refTwim L k + numDelta p .twim L k

end Sys2Proof.Machine
end

