-- ==== Sys2Proof/Machine/SizeDerivation.lean ====
section
/-! DEFINITION. `DERIVE` (spec/41_size_derivation.md R140 to R144). -/

namespace Sys2Proof.Machine

/-- `N <- n; L <- 1 << n; M <- (1 << n) >> 1`, and no table is valid any more (R141). -/
def State.deriveSizes (s : State) (n : Nat) : State :=
  (s.setSizes (BitVec.ofNat 64 n) (BitVec.ofNat 64 (inputLength n)) (BitVec.ofNat 64 (outputLength n))).invalidateTables

/-- `DERIVE n` (R141, R143). -/
def execDerive (n : Int) (s : State) : Host.Outcome State Fault Refusal :=
  if deriveRejects s.params n then .next (s.raise .invalidExponent (cmdValue (.derive n)))
  else .next (s.deriveSizes n.toNat).complete

end Sys2Proof.Machine
end

