-- ==== Sys2Proof/Machine/Twiddle.lean ====
section
/-! DEFINITION. The twiddle-factor table generator: `GENTW` and `TWSAMP` (spec/43_twiddle.md R160 to R165). -/

namespace Sys2Proof.Machine

/-- `TwSample(L, 0) .. TwSample(L, M-1)` in index order, real part before imaginary part, as table cells
(R160, R161). -/
def twTable (p : Config.Params) (L M : Nat) : List Reg :=
  (List.range M).flatMap (fun k => [tc64 (numTwre p L k), tc64 (numTwim p L k)])

/-- `GENTW` (R161, R162): no fault; at `M = 0` the table is empty. -/
def execGentw (s : State) : Host.Outcome State Fault Refusal :=
  .next (s.storeTw (twTable s.params s.lVal s.mVal)).validateTw.complete

/-- `TWSAMP idx` (R165): no fault; `idx` is not compared with `M` or `L`. -/
def execTwsamp (idx : Nat) (s : State) : Host.Outcome State Fault Refusal :=
  .next (s.setResults (tc64 (numTwre s.params s.lVal idx)) (tc64 (numTwim s.params s.lVal idx))).complete

end Sys2Proof.Machine
end

