-- ==== Sys2Proof/Machine/Window.lean ====
section
/-! DEFINITION. The window-function sampler: `GENWIN` and `WSAMP` (spec/42_window.md R150 to R156). -/

namespace Sys2Proof.Machine

/-- `WinSample(L, 0) .. WinSample(L, L-1)` in index order, as table cells (R150, R151). -/
def winTable (p : Config.Params) (L : Nat) : List Reg := (List.range L).map (fun i => tc64 (numWin p L i))

/-- `GENWIN` (R151, R152). -/
def execGenwin (s : State) : Host.Outcome State Fault Refusal :=
  if s.windowUndefined then .next (s.raise .invalidExponent (cmdValue .genwin))
  else .next (s.storeWin (winTable s.params s.lVal)).validateWin.complete

/-- `WSAMP idx` (R155). `idx` is not compared with `L`. -/
def execWsamp (idx : Nat) (s : State) : Host.Outcome State Fault Refusal :=
  if s.windowUndefined then .next (s.raise .invalidExponent (cmdValue (.wsamp idx)))
  else .next (s.setResults (tc64 (numWin s.params s.lVal idx)) 0#64).complete

end Sys2Proof.Machine
end

