-- ==== Sys2Proof/Machine/GenerateAll.lean ====
section
/-! DEFINITION. `GENALL` (spec/45_generate_all.md R186 to R189). -/

namespace Sys2Proof.Machine

/-- The three tables of exponent `n`, in the order window, twiddle, bit reversal, which cannot be observed
(R186, R187). -/
def State.storeAll (s : State) (n : Nat) : State :=
  ((s.storeWin (winTable s.params (inputLength n))).storeTw
    (twTable s.params (inputLength n) (outputLength n))).storeRev (revTable (inputLength n) n)

/-- `GENALL n` (R186, R188): the lengths and tables of the new exponent, or a fault that changes none of them. -/
def execGenall (n : Int) (s : State) : Host.Outcome State Fault Refusal :=
  if genallRejects s.params n then .next (s.raise .invalidExponent (cmdValue (.genall n)))
  else .next ((s.deriveSizes n.toNat).storeAll n.toNat).validateWin.validateTw.validateRev.complete

end Sys2Proof.Machine
end

