-- ==== Sys2Proof/Machine/Dispatch.lean ====
section
/-! DEFINITION. The engine: one admitted and decoded command, executed as one transition (spec/20_memory.md R75). Which
command an arm stands for is the constructor's own name. -/

namespace Sys2Proof.Machine

def exec (i : Instr) (s : State) : Host.Outcome State Fault Refusal :=
  match i with
  | .derive n => Sys2Proof.Machine.execDerive n s
  | .genwin => Sys2Proof.Machine.execGenwin s
  | .gentw => Sys2Proof.Machine.execGentw s
  | .genrev => Sys2Proof.Machine.execGenrev s
  | .genall n => Sys2Proof.Machine.execGenall n s
  | .wsamp idx => Sys2Proof.Machine.execWsamp idx s
  | .twsamp idx => Sys2Proof.Machine.execTwsamp idx s
  | .bitrev idx => Sys2Proof.Machine.execBitrev idx s

end Sys2Proof.Machine
end

