-- ==== Sys2Proof/Machine/Port.lean ====
section
/-! DEFINITION. The host port: the address map (spec/20_memory.md R60 to R66), register accesses (R67, spec/10_state.md
R40 to R45), table reads (R68), refused accesses (R69, R70), and the admission of commands (R75, R76,
spec/60_exceptions.md R206). -/

namespace Sys2Proof.Machine

/-- The ten registers of the CSR region (spec/10_state.md R40). -/
inductive Csr where
  | cmd
  | status
  | ctrl
  | cap
  | exp
  | inlen
  | outlen
  | res0
  | res1
  | finfo
  deriving DecidableEq, Repr

/-- The byte offset of a register in region 0 (spec/10_state.md R40). -/
def Csr.offset : Csr → Nat
  | .cmd    => 0x00
  | .status => 0x08
  | .ctrl   => 0x10
  | .cap    => 0x18
  | .exp    => 0x20
  | .inlen  => 0x28
  | .outlen => 0x30
  | .res0   => 0x38
  | .res1   => 0x40
  | .finfo  => 0x48

/-- The registers, in the order of their offsets. -/
def csrList : List Csr := [.cmd, .status, .ctrl, .cap, .exp, .inlen, .outlen, .res0, .res1, .finfo]

/-- The register at an offset of region 0; every other offset is reserved (spec/10_state.md R40). -/
def csrAt (off : Nat) : Option Csr := csrList.find? (fun c => decide (c.offset = off))

/-- The value a read of a register returns (R67). -/
def State.csrValue (s : State) : Csr → Reg
  | .cmd    => 0#64
  | .status => s.statusWord
  | .ctrl   => 0#64
  | .cap    => (BitVec.ofNat 5 s.params.nmax).setWidth 64
  | .exp    => s.x 0
  | .inlen  => s.x 1
  | .outlen => s.x 2
  | .res0   => s.x 3
  | .res1   => s.x 4
  | .finfo  => s.finfo

/-- `addr[28:27]` (R62). -/
def regionOf (addr : PortAddr) : Nat := addr.toNat / 2 ^ 27

/-- `off = addr[26:0]` (R63). -/
def offsetOf (addr : PortAddr) : Nat := addr.toNat % 2 ^ 27

/-- The one admitted shape of an access: 8 bytes at a multiple of 8 (R66). -/
def shapeOk (addr : PortAddr) (width : Nat) : Bool := decide (width = 8 ∧ addr.toNat % 8 = 0)

/-- What becomes of a read. -/
inductive ReadResult where
  | value (v : Reg)
  | accessFault
  /-- Admitted, but the cell has no value. -/
  | unspecified
  deriving DecidableEq, Repr

/-- An admitted table read returns the cell's value, if it has one. -/
def ReadResult.ofCell : Option Reg → ReadResult
  | some v => .value v
  | none   => .unspecified

/-- A read of region 0 (R67, R70 (b)). -/
def State.readCsr (s : State) (off : Nat) : ReadResult :=
  match csrAt off with
  | some c => .value (s.csrValue c)
  | none   => .accessFault

/-- A read of `WIN[i]` (R68). -/
def State.readWin (s : State) (i : Nat) : ReadResult :=
  if s.wv = false ∨ s.lVal ≤ i then .accessFault else .ofCell (s.winElem i)

/-- A read of one half of `TW[k]` (R68). -/
def State.readTw (s : State) (k : Nat) (im : Bool) : ReadResult :=
  if s.tv = false ∨ s.mVal ≤ k then .accessFault else .ofCell (s.twElem k im)

/-- A read of `REV[i]` (R68). -/
def State.readRev (s : State) (i : Nat) : ReadResult :=
  if s.rv = false ∨ s.lVal ≤ i then .accessFault else .ofCell (s.revElem i)

/-- `MemRead(addr, width)` (R66 to R68). -/
def State.portRead (s : State) (addr : PortAddr) (width : Nat) : ReadResult :=
  if shapeOk addr width = false then .accessFault
  else
    match regionOf addr with
    | 0 => s.readCsr (offsetOf addr)
    | 1 => s.readWin (offsetOf addr / 8)
    | 2 => s.readTw (offsetOf addr / 16) (decide (offsetOf addr / 8 % 2 = 1))
    | _ => s.readRev (offsetOf addr / 8)

/-- The answer to a write that the command or the reset has taken. -/
def acknowledge : Host.Outcome State Fault Refusal → Host.Outcome State Fault Refusal
  | .next t    => .next (t.respond .ack)
  | .fault r   => .fault r
  | .refused r => .refused r

/-- A value handed to the engine: decode, then execute, or raise `InvalidInvocation` (R75, spec/30_encoding.md R90,
spec/60_exceptions.md R202). -/
def engine (v : Reg) (s : State) : Host.Outcome State Fault Refusal :=
  match decode v with
  | .command i => exec i s
  | .illegal _ => .next (s.raise .invalidInvocation v)

/-- A write to `CMD`: refused in `FAULT`, else handed to the engine (R76). -/
def writeCmd (v : Reg) (s : State) : Host.Outcome State Fault Refusal :=
  if s.runState = .fault then .next (s.respond .accessFault) else acknowledge (engine v s)

/-- A write to `CTRL`: bit 0 set is the soft reset, every other bit is ignored (spec/10_state.md R42). -/
def writeCtrl (v : Reg) (s : State) : Host.Outcome State Fault Refusal :=
  if v.getLsbD 0 then .next (s.toReset.respond .ack) else .next (s.respond .ack)

/-- `MemWrite(addr, width, v)`, the checks in the order of spec/60_exceptions.md R206 (R66, R67, R69). -/
def portWrite (addr : PortAddr) (width : Nat) (v : Reg) (s : State) : Host.Outcome State Fault Refusal :=
  if shapeOk addr width = false ∨ regionOf addr ≠ 0 then .next (s.respond .accessFault)
  else
    match csrAt (offsetOf addr) with
    | some .cmd  => writeCmd v s
    | some .ctrl => writeCtrl v s
    | _          => .next (s.respond .accessFault)

/-- The answer to a read; no read changes anything else (R71). -/
def answerRead (r : ReadResult) (s : State) : Host.Outcome State Fault Refusal :=
  match r with
  | .value v     => .next (s.respond (.data v))
  | .accessFault => .next (s.respond .accessFault)
  | .unspecified => .fault .unspecifiedCell

/-- One host operation (R60, spec/00_scope.md R6, spec/70_reset_and_hazards.md R230). -/
def hostStep (op : HostOp) (s : State) : Host.Outcome State Fault Refusal :=
  match op with
  | .read addr width    => answerRead (s.portRead addr width) s
  | .write addr width v => portWrite addr width v s
  | .hardReset          => .next (s.toReset.respond .none)

/-- The next step of the machine: the first pending host operation; with none pending the block is idle and keeps all
its state (spec/60_exceptions.md R222). -/
def nextStep (s : State) : Host.Outcome State Fault Refusal :=
  match s.script with
  | []        => .next s
  | op :: ops => hostStep op (s.setScript ops)

/-- The port address of a register (spec/10_state.md R40). -/
def csrAddr (c : Csr) : PortAddr := BitVec.ofNat 29 c.offset

/-- The write of `v` to `CMD` (spec/30_encoding.md R112). -/
def cmdWrite (v : Reg) : HostOp := .write (csrAddr .cmd) 8 v

/-- The value written to `CMD` for an instruction word of spec/opcode_table.json: bits above `nbits` are 0. -/
def tableWordValue (nbits w : Nat) : Reg := BitVec.ofNat 64 (w % 2 ^ nbits)

/-- The host's next operation is the write of that word to `CMD`; nothing else changes (log 4). -/
def State.placeWord (s : State) (nbits w : Nat) : State :=
  s.setScript (cmdWrite (tableWordValue nbits w) :: s.script)

end Sys2Proof.Machine
end

