-- ==== Sys2Proof/Machine/Step.lean ====
section
/-! DEFINITION. One step of the machine (spec/20_memory.md R60, R75): the host's next operation, which when it is a write
to `CMD` contains the whole command. FTG has no program counter and fetches nothing (spec/10_state.md R28,
spec/20_memory.md R79): a command comes from the data of the `CMD` write. -/

namespace Sys2Proof.Machine

/-- One step of the machine. -/
def step (s : State) : Host.Outcome State Fault Refusal := Sys2Proof.Machine.nextStep s

/-- `s` with an instruction word placed so that the very next step runs it: the host's next operation writes it to
`CMD` (log 4). -/
def State.withFetchWord (s : State) (nbits w : Nat) : State := s.placeWord nbits w

end Sys2Proof.Machine
end

