-- ==== Sys2Proof/Machine/Ideal.lean ====
section
/-! DEFINITION. What the numerics are measured against: the ideal real values (spec/40_numerics.md R121), the quantiser
on real numbers (R122) and the property `NumOK(EPSQ)` (R126). No step uses anything of this file. -/

namespace Sys2Proof.Machine

/-- `Wexact(L, i)`, with `D = L - 1` (R121). -/
noncomputable def wExact (L i : Nat) : ℝ :=
  0.35875 - 0.48829 * Real.cos (2 * Real.pi * i / ((L : ℝ) - 1)) + 0.14128 * Real.cos (4 * Real.pi * i / ((L : ℝ) - 1))
    - 0.01168 * Real.cos (6 * Real.pi * i / ((L : ℝ) - 1))

/-- `TwReExact(L, k)` (R121). -/
noncomputable def twReExact (L k : Nat) : ℝ := Real.cos (2 * Real.pi * k / L)

/-- `TwImExact(L, k)` (R121). -/
noncomputable def twImExact (L k : Nat) : ℝ := Real.sin (2 * Real.pi * k / L)

/-- The quantiser on a real number (R122). -/
noncomputable def q10Real (v : ℝ) : Int :=
  let x := v * SCALE
  let f := ⌊x⌋
  if x - f < 1 / 2 then f else if 1 / 2 < x - f then f + 1 else if f % 2 = 0 then f else f + 1

/-- The parameters' `NUM` satisfies `NumOK(EPSQ)` (R126). -/
def NumOK (p : Config.Params) (eps : ℝ) : Prop :=
  1 / 2 ≤ eps ∧ eps ≤ 3 ∧
    ∀ N idx : Nat, N ≤ p.nmax → idx < 2 ^ 24 →
      (2 ≤ 2 ^ N → |(numWin p (2 ^ N) idx : ℝ) - SCALE * wExact (2 ^ N) idx| ≤ eps) ∧
        |(numTwre p (2 ^ N) idx : ℝ) - SCALE * twReExact (2 ^ N) idx| ≤ eps ∧
          |(numTwim p (2 ^ N) idx : ℝ) - SCALE * twImExact (2 ^ N) idx| ≤ eps

end Sys2Proof.Machine
end

