-- ==== Sys2Proof/Machine/Render.lean ====
section
/-! DEFINITION. The printed form of an element, `Render10` (spec/40_numerics.md R130): what a host writes for a Q10
value. No step uses it. -/

namespace Sys2Proof.Machine

/-- The character of a decimal digit. -/
def digitChar (d : Nat) : Char := Char.ofNat (48 + d % 10)

/-- The last `k` decimal digits of a number, padded with zeros on the left. -/
def lastDigits : Nat → Nat → List Char
  | 0, _     => []
  | k + 1, n => lastDigits k (n / 10) ++ [digitChar n]

/-- A number in decimal without leading zeros, of at most `fuel` digits. -/
def decimalFrom : Nat → Nat → List Char
  | 0, _        => []
  | fuel + 1, n => if n < 10 then [digitChar n] else decimalFrom fuel (n / 10) ++ [digitChar n]

/-- A number in decimal without leading zeros. -/
def decimal (n : Nat) : List Char := decimalFrom (n + 1) n

/-- `Render10(q)` (R130). -/
def render10 (q : Int) : List Char :=
  (if q < 0 then ['-'] else []) ++ decimal (q.natAbs / SCALE) ++ ['.'] ++ lastDigits 10 (q.natAbs % SCALE)

end Sys2Proof.Machine
end

