-- ==== Sys2Proof/Machine/Script.lean ====
section
/-! DEFINITION. The host-script notation (spec/30_encoding.md R112, spec/20_memory.md R81) as host operations, the
host's sequence for the three tables (spec/70_reset_and_hazards.md R231), and the assembler of one line (R111). No step
uses anything of this file. -/

namespace Sys2Proof.Machine

/-- One line of a host script (R112). -/
inductive ScriptLine where
  /-- A command in the syntax of R111. -/
  | command (i : Instr)
  /-- `CMDW v`. -/
  | cmdw (v : Reg)
  /-- `SRST`. -/
  | srst
  /-- `RESET`. -/
  | reset
  /-- `RDCSR name`. -/
  | rdcsr (c : Csr)
  /-- `RDW i`. -/
  | rdw (i : Nat)
  /-- `RDT k.re` (`im = false`) or `RDT k.im` (`im = true`). -/
  | rdt (k : Nat) (im : Bool)
  /-- `RDR i`. -/
  | rdr (i : Nat)
  deriving DecidableEq, Repr

/-- The expansion of a line (R112). DESIGN CHOICE (log 12): the formulas of `RDW`, `RDT` and `RDR` are applied to every
index. The spec bounds the index of an element by its aperture (spec/20_memory.md R63) and does not say what a line with a
larger index means; here the formula's address is taken modulo 2^29, the width of a port address, so such a line reads
whatever that address names (`RDW 16777216` reads `TW[0].re`, `RDR 16777216` reads `CMD`). -/
def ScriptLine.expand : ScriptLine → HostOp
  | .command i => cmdWrite (cmdValue i)
  | .cmdw v    => cmdWrite v
  | .srst      => .write (csrAddr .ctrl) 8 1#64
  | .reset     => .hardReset
  | .rdcsr c   => .read (csrAddr c) 8
  | .rdw i     => .read (BitVec.ofNat 29 (winAddr i)) 8
  | .rdt k im  => .read (BitVec.ofNat 29 (twAddr k im)) 8
  | .rdr i     => .read (BitVec.ofNat 29 (revAddr i)) 8

/-- What a host that wants the tables of exponent `n` does up to the check of `STATUS`, and the lengths it then reads
(spec/70_reset_and_hazards.md R231, steps 1 to 4). -/
def generateSequence (n : Int) : List ScriptLine :=
  [.rdcsr .cap, .command (.genall n), .rdcsr .status, .rdcsr .inlen, .rdcsr .outlen]

/-- The reads of step 5 of R231 for lengths `L` and `M`. -/
def readOutSequence (L M : Nat) : List ScriptLine :=
  (List.range L).map .rdw ++ (List.range M).flatMap (fun k => [.rdt k false, .rdt k true]) ++ (List.range L).map .rdr

/-! ### The assembler (R111) -/

/-- The value of a digit character below the base. -/
def digitValue (base : Nat) (c : Char) : Option Nat :=
  let n := c.toNat
  let d := if 48 ≤ n ∧ n ≤ 57 then n - 48 else if 65 ≤ n ∧ n ≤ 70 then n - 55 else if 97 ≤ n ∧ n ≤ 102 then n - 87 else 16
  if d < base then some d else none

/-- Digits read from the left onto what has been read. -/
def digitsFrom (base : Nat) : Nat → List Char → Option Nat
  | acc, []      => some acc
  | acc, c :: cs => (digitValue base c).bind (fun d => digitsFrom base (acc * base + d) cs)

/-- A number of at least one digit. -/
def parseDigits (base : Nat) : List Char → Option Nat
  | [] => none
  | cs => digitsFrom base 0 cs

/-- A decimal integer, or a hexadecimal one with the prefix `0x` (R111). -/
def parseNat : List Char → Option Nat
  | '0' :: 'x' :: cs => parseDigits 16 cs
  | cs               => parseDigits 10 cs

/-- A format N operand: a decimal integer may have a leading `-` (R111). -/
def parseInt : List Char → Option Int
  | '-' :: cs => (parseDigits 10 cs).map (fun d => -(d : Int))
  | cs        => (parseNat cs).map (fun d => (d : Int))

/-- The text of a mnemonic (R94). -/
def opText : Op → List Char
  | .derive => ['D', 'E', 'R', 'I', 'V', 'E']
  | .genwin => ['G', 'E', 'N', 'W', 'I', 'N']
  | .gentw  => ['G', 'E', 'N', 'T', 'W']
  | .genrev => ['G', 'E', 'N', 'R', 'E', 'V']
  | .genall => ['G', 'E', 'N', 'A', 'L', 'L']
  | .wsamp  => ['W', 'S', 'A', 'M', 'P']
  | .twsamp => ['T', 'W', 'S', 'A', 'M', 'P']
  | .bitrev => ['B', 'I', 'T', 'R', 'E', 'V']

/-- The line without its comment and without the blanks that end it (R111; the blanks are DESIGN CHOICE, log 11). -/
def stripLine (cs : List Char) : List Char :=
  ((cs.takeWhile (fun c => c != '#')).reverse.dropWhile (fun c => c == ' ')).reverse

/-- The command of an opcode name with an operand text, or with none. -/
def commandOf : Op → Option (List Char) → Option Instr
  | .derive, some cs => (parseInt cs).map .derive
  | .genall, some cs => (parseInt cs).map .genall
  | .wsamp,  some cs => (parseNat cs).map .wsamp
  | .twsamp, some cs => (parseNat cs).map .twsamp
  | .bitrev, some cs => (parseNat cs).map .bitrev
  | .genwin, none    => some .genwin
  | .gentw,  none    => some .gentw
  | .genrev, none    => some .genrev
  | _, _             => none

/-- The mnemonic and, after one space, the operand text. -/
def splitLine (cs : List Char) : List Char × Option (List Char) :=
  match cs.dropWhile (fun c => c != ' ') with
  | []        => (cs, none)
  | _ :: rest => (cs.takeWhile (fun c => c != ' '), some rest)

/-- The assembler of one line: the command it writes down, if it is one and its operand lies in the range of R93
(R111). -/
def assemble (line : List Char) : Option Instr :=
  let (m, operand) := splitLine (stripLine line)
  match opcodeTable.find? (fun r => decide (opText r.op = m)) with
  | some r => (commandOf r.op operand).filter (fun i => i.wf)
  | none   => none

end Sys2Proof.Machine
end

