-- ==== Sys2Proof/Safety.lean ====
section
/-! DEFINITION. What counts as a safe run: the invariants of spec/10_state.md R51, the end of a run
(spec/70_reset_and_hazards.md R232), its exit code (spec/60_exceptions.md R215), and the words the statements use. -/

namespace Sys2Proof.Machine

/-- The state of FTG alone, without the host's side of the port. -/
def State.block (s : State) : State := (s.setScript []).respond .none

/-- The invariants R51 (a) to (f) of a block whose parameters are admissible (spec/00_scope.md R7). -/
structure SpecInv (s : State) : Prop where
  params     : s.params.wf = true
  exponent   : s.nVal ≤ s.params.nmax
  lengthL    : s.lVal = 2 ^ s.nVal
  lengthM    : s.mVal = s.lVal >>> 1
  faulted    : s.cause ≠ .none ↔ s.runState = .fault
  finfoClear : s.runState ≠ .fault → s.finfo = 0#64
  winExp     : s.wv = true → 1 ≤ s.nVal
  winTable   : s.wv = true → ∀ i < s.lVal, s.winElem i = some (tc64 (numWin s.params s.lVal i))
  twTable    : s.tv = true → ∀ k < s.mVal,
    s.twElem k false = some (tc64 (numTwre s.params s.lVal k)) ∧ s.twElem k true = some (tc64 (numTwim s.params s.lVal k))
  revTable   : s.rv = true → ∀ i < s.lVal, s.revElem i = some (BitVec.ofNat 64 (reverseBits i s.nVal))

/-- The port address `a` belongs to an element of a valid table (spec/10_state.md R33, R35): its flag is 1 and its index
is below the table's length. -/
def State.tableByte (s : State) (a : Nat) : Prop :=
  (s.wv = true ∧ winAddr 0 ≤ a ∧ a < winAddr s.lVal) ∨
    (s.tv = true ∧ twAddr 0 false ≤ a ∧ a < twAddr s.mVal false) ∨
      (s.rv = true ∧ revAddr 0 ≤ a ∧ a < revAddr s.lVal)

/-- The invariants of R51 with those the model adds: no `IOFailure` is ever recorded (spec/60_exceptions.md R204), the
memory keeps its canonical form and lists a byte exactly where a valid table has one (log 6), and an `IDLE` block is a
block at reset (spec/10_state.md R41). -/
structure Inv (s : State) : Prop extends SpecInv s where
  noIoFault : s.cause ≠ .ioFailure
  memWf     : Memory.wf s.mem
  memExact  : ∀ a, (s.mem.read a).isSome = true ↔ s.tableByte a
  idleReset : s.runState = .idle → s = s.toReset

/-- A run has ended well: the last command taken has completed (R232). -/
def State.endedWell (s : State) : Prop := s.runState = .done

/-- A run has ended badly (R232). -/
def State.endedBadly (s : State) : Prop := s.runState = .fault

/-- The document's exit code (R215): 0 for `DONE`, 1 for `FAULT`, none while nothing has been asked. -/
def State.exitCode (s : State) : Option Nat :=
  match s.runState with
  | .idle  => none
  | .done  => some 0
  | .fault => some 1

/-- A step is safe when it gives a next state: neither a fault nor a refusal of the model (spec/00_scope.md R12). -/
def State.stepSafe (s : State) : Prop := ∃ t, step s = .next t

/-- Commands executed one after another, each to completion (spec/10_state.md R28). -/
def execAll : List Instr → State → Host.Outcome State Fault Refusal
  | [], s      => .next s
  | i :: is, s =>
    match exec i s with
    | .next t    => execAll is t
    | .fault r   => .fault r
    | .refused r => .refused r

/-- A host operation that resets the block: the hardware reset, or a write to `CTRL` with bit 0 set
(spec/60_exceptions.md R213). -/
def HostOp.resets : HostOp → Bool
  | .hardReset             => true
  | .write addr width v    => decide (addr = csrAddr .ctrl ∧ width = 8 ∧ v.getLsbD 0 = true)
  | .read _ _              => false

/-- The causes (a) to (e) for which a port access is refused (spec/20_memory.md R70). -/
def State.refuses (s : State) : HostOp → Prop
  | .hardReset => False
  | .read addr width =>
    shapeOk addr width = false ∨ (regionOf addr = 0 ∧ ∀ c, offsetOf addr ≠ Csr.offset c) ∨
      (regionOf addr = 1 ∧ (s.wv = false ∨ s.lVal ≤ offsetOf addr / 8)) ∨
        (regionOf addr = 2 ∧ (s.tv = false ∨ s.mVal ≤ offsetOf addr / 16)) ∨
          (regionOf addr = 3 ∧ (s.rv = false ∨ s.lVal ≤ offsetOf addr / 8))
  | .write addr width _ =>
    shapeOk addr width = false ∨ regionOf addr ≠ 0 ∨ (∀ c, offsetOf addr ≠ Csr.offset c) ∨
      (∃ c, c ≠ .cmd ∧ c ≠ .ctrl ∧ offsetOf addr = Csr.offset c) ∨
        (offsetOf addr = Csr.offset .cmd ∧ s.runState = .fault)

end Sys2Proof.Machine
end

