-- ==== Sys2Proof/Certificates/Slice0/Obligations.lean ====
section
/-! DEFINITION. The statements for the provers: what the rules of spec/ say the commands, the port and the whole machine
do. -/

open Sys2Proof Sys2Proof.Machine

/-! ### Encoding (spec/30_encoding.md) -/

/-- Words written out from spec/95_test_vectors.md section 2.1 (E1 to E24) decode as that section says. -/
def Obligations.DecodesSpecWords : Prop :=
  decode 0x0000000001000003#64 = .command (.derive 3) ∧ decode 0x0000000001FFFFFF#64 = .command (.derive (-1)) ∧
    decode 0x0000000001800000#64 = .command (.derive (-8388608)) ∧
    decode 0x00000000017FFFFF#64 = .command (.derive 8388607) ∧ decode 0x0000000002000000#64 = .command .genwin ∧
    decode 0x0000000003000000#64 = .command .gentw ∧ decode 0x0000000004000000#64 = .command .genrev ∧
    decode 0x000000000500000A#64 = .command (.genall 10) ∧ decode 0x0000000005FFFFFF#64 = .command (.genall (-1)) ∧
    decode 0x0000000011000003#64 = .command (.wsamp 3) ∧ decode 0x0000000011FFFFFF#64 = .command (.wsamp 16777215) ∧
    decode 0x0000000012000001#64 = .command (.twsamp 1) ∧ decode 0x0000000013000006#64 = .command (.bitrev 6) ∧
    decode 0x0000000000000000#64 = .illegal .unassignedOp ∧ decode 0x00000000FFFFFFFF#64 = .illegal .unassignedOp ∧
    decode 0x0000000105000003#64 = .illegal .upperHalf ∧ decode 0x0000000002000001#64 = .illegal .operandInZ ∧
    decode 0x0000000003008000#64 = .illegal .operandInZ ∧ decode 0x0000000010000000#64 = .illegal .unassignedOp

/-- Decoding the value of a well-formed command gives the command back, with every operand its format admits. -/
def Obligations.DecodeEncodeRoundTrip : Prop :=
  ∀ i : Instr, i.wf = true → decode (cmdValue i) = .command i

/-- Every value that decodes is the value of one well-formed command: no bit of it is dropped. -/
def Obligations.DecodedValueIsItsEncoding : Prop :=
  ∀ (v : Reg) (i : Instr), decode v = .command i → i.wf = true ∧ cmdValue i = v

/-- R90: bits [63:32] are checked first, at most one row matches, the matching row's command is executed with the
operand assembled from `IMM`, and every other value raises `InvalidInvocation`. -/
def Obligations.DecoderFollowsOpcodeTable : Prop :=
  (∀ (cmd : Command) (r r' : Row), r ∈ opcodeTable → r' ∈ opcodeTable → r.selects cmd = true → r'.selects cmd = true →
      r = r') ∧
    (∀ (v : Reg) (i : Instr), decode v = .command i ↔ v.extractLsb' 32 32 = 0#32 ∧
      ∃ r ∈ opcodeTable, v.extractLsb' 0 32 &&& r.mask = r.pattern ∧ i = instrOf r.op (v.extractLsb' 0 24)) ∧
    ∀ (v : Reg) (s : State), (∃ i, decode v = .command i ∧ engine v s = exec i s) ∨
      ((∀ i, decode v ≠ .command i) ∧
        engine v s = .next { s with runState := .fault, cause := .invalidInvocation, finfo := v })

/-- R100: the illegal values are exactly (a) a bit of [63:32] set, (b) an unassigned `OP`, (c) a format Z opcode with a
non-zero `IMM`, and each raises `InvalidInvocation`; the all-zero and the all-ones word are among them. -/
def Obligations.IllegalValuesAreExactlyListed : Prop :=
  (∀ v : Reg, (∃ why, decode v = .illegal why) ↔
      (2 ^ 32 ≤ v.toNat ∨
        (v.toNat / 2 ^ 24 % 2 ^ 8 = 0 ∨ (6 ≤ v.toNat / 2 ^ 24 % 2 ^ 8 ∧ v.toNat / 2 ^ 24 % 2 ^ 8 ≤ 16) ∨
          20 ≤ v.toNat / 2 ^ 24 % 2 ^ 8) ∨
        ((v.toNat / 2 ^ 24 % 2 ^ 8 = 2 ∨ v.toNat / 2 ^ 24 % 2 ^ 8 = 3 ∨ v.toNat / 2 ^ 24 % 2 ^ 8 = 4) ∧
          v.toNat % 2 ^ 24 ≠ 0))) ∧
    (∀ (v : Reg) (why : Illegal) (s : State), decode v = .illegal why →
      engine v s = .next { s with runState := .fault, cause := .invalidInvocation, finfo := v }) ∧
    (∃ why, decode 0x0000000000000000#64 = .illegal why) ∧ ∃ why, decode 0x00000000FFFFFFFF#64 = .illegal why

/-! ### The step and engine faults (spec/20_memory.md R75, R76, spec/60_exceptions.md) -/

/-- When the host's next operation writes to `CMD` a value that decodes to `i` and the block is not in `FAULT`, the step
is `exec i` with that operation taken off the script and the write acknowledged; a table word placed by `withFetchWord`
is run by the very next step. -/
def Obligations.StepRunsDecodedCommand : Prop :=
  (∀ (s : State) (v : Reg) (ops : List HostOp) (i : Instr) (t : State), s.script = cmdWrite v :: ops →
      s.runState ≠ .fault → decode v = .command i → exec i { s with script := ops } = .next t →
      step s = .next { t with resp := .ack }) ∧
    ∀ (s : State) (w : Nat) (i : Instr) (t : State), s.runState ≠ .fault → decodeTableWord 32 w = some i →
      exec i s = .next t → step (s.withFetchWord 32 w) = .next { t with resp := .ack }

/-- R76: in `FAULT` a write to `CMD` is refused and nothing changes; otherwise the value goes to the decoder, whatever
it is. -/
def Obligations.CommandAdmission : Prop :=
  ∀ (s : State) (v : Reg) (ops : List HostOp), s.script = cmdWrite v :: ops →
    (s.runState = .fault → step s = .next { s with script := ops, resp := .accessFault }) ∧
      (s.runState ≠ .fault → ∃ t, engine v { s with script := ops } = .next t ∧ step s = .next { t with resp := .ack })

/-- R210: whatever value the host writes, a command that faults writes `STATE`, `CAUSE` and `FINFO` (the value written)
and nothing else. -/
def Obligations.EngineFaultWritesOnlyItsRecord : Prop :=
  ∀ (v : Reg) (s t : State), s.runState ≠ .fault → engine v s = .next t → t.runState = .fault →
    ∃ c, (c = .invalidInvocation ∨ c = .invalidExponent) ∧ t = { s with runState := .fault, cause := c, finfo := v }

/-- R203: the complete list of the causes of `InvalidExponent`. -/
def Obligations.InvalidExponentCauses : Prop :=
  ∀ (i : Instr) (s : State), s.runState ≠ .fault → s.cause = .none →
    ((∃ t, exec i s = .next t ∧ t.cause = .invalidExponent) ↔
      match i with
      | .derive n => n < 0 ∨ (s.params.nmax : Int) < n
      | .genall n => n < 1 ∨ (s.params.nmax : Int) < n
      | .genwin   => s.lVal ≤ 1
      | .wsamp _  => s.lVal ≤ 1
      | .gentw    => False
      | .genrev   => False
      | .twsamp _ => False
      | .bitrev _ => False)

/-- R212 and R213: in `FAULT` every operation but a reset leaves the whole block as it is, and a reset leaves the reset
state. -/
def Obligations.FaultIsLeftOnlyByReset : Prop :=
  ∀ (s t : State) (op : HostOp) (ops : List HostOp), s.runState = .fault → s.script = op :: ops → step s = .next t →
    (op.resets = false → t.block = s.block) ∧
      (op.resets = true → t.block = { State.reset with params := s.params })

/-- R212: reads still work in `FAULT`: a register gives its value, a table read gives what it gave before the fault. -/
def Obligations.ReadsStillWorkInFault : Prop :=
  ∀ (s : State) (c : Cause) (v : Reg),
    (∀ r : Csr, (s.raise c v).portRead (csrAddr r) 8 = .value ((s.raise c v).csrValue r)) ∧
      ∀ (addr : PortAddr) (width : Nat), regionOf addr ≠ 0 →
        (s.raise c v).portRead addr width = s.portRead addr width

/-! ### The commands (spec/41 to 45) -/

/-- `DERIVE n` with `0 <= n <= NMAX` completes: `N`, `L`, `M`, the cleared flags and `DONE`; every other register is
unchanged. That the memory holds no table value afterwards is the model's reading of "unspecified" (log 6, DEDUCED from
spec/10_state.md R33). -/
def Obligations.DeriveCompletes : Prop :=
  ∀ (n : Nat) (s : State), n ≤ s.params.nmax →
    exec (.derive n) s = .next { s with
      regN := BitVec.ofNat 64 n, regL := BitVec.ofNat 64 (2 ^ n), regM := BitVec.ofNat 64 (2 ^ n / 2),
      wv := false, tv := false, rv := false, runState := .done, mem := [] }

/-- `DERIVE n` with `n < 0` or `n > NMAX` writes the fault record and nothing else. -/
def Obligations.DeriveRejects : Prop :=
  ∀ (n : Int) (s : State), n < 0 ∨ (s.params.nmax : Int) < n →
    exec (.derive n) s = .next { s with runState := .fault, cause := .invalidExponent, finfo := cmdValue (.derive n) }

/-- R143: `DERIVE 0` completes with `N = 0`, `L = 1`, `M = 0`; then `GENWIN` and `WSAMP` fault, `GENTW` makes an empty
table, `GENREV` makes `[0]`, and `GENALL 0` is refused. -/
def Obligations.DeriveZero : Prop :=
  ∀ s : State, ∃ t, exec (.derive 0) s = .next t ∧ t.regN = 0#64 ∧ t.regL = 1#64 ∧ t.regM = 0#64 ∧ t.runState = .done ∧
    exec .genwin t =
      .next { t with runState := .fault, cause := .invalidExponent, finfo := 0x0000000002000000#64 } ∧
    (∀ idx, exec (.wsamp idx) t =
      .next { t with runState := .fault, cause := .invalidExponent, finfo := cmdValue (.wsamp idx) }) ∧
    (∃ u, exec .gentw t = .next u ∧ u.tv = true ∧ u.runState = .done ∧ ∀ k im, u.readTw k im = .accessFault) ∧
    (∃ u, exec .genrev t = .next u ∧ u.rv = true ∧ u.runState = .done ∧ u.readRev 0 = .value 0#64 ∧
      ∀ i, 1 ≤ i → u.readRev i = .accessFault) ∧
    exec (.genall 0) s = .next { s with runState := .fault, cause := .invalidExponent, finfo := 0x0000000005000000#64 }

/-- `GENWIN` with `L >= 2` completes: element `i` holds `NUM.win(L, i)` for every `i < L`, `WV` is 1; every register,
every other flag and every byte outside the `L` elements is unchanged. -/
def Obligations.GenwinCompletes : Prop :=
  ∀ s : State, 2 ≤ s.lVal → ∃ t, exec .genwin s = .next t ∧
    (∀ i < s.lVal, t.winElem i = some (tc64 (numWin s.params s.lVal i))) ∧
    t = { s with wv := true, runState := .done, mem := t.mem } ∧
    ∀ a, a < winAddr 0 ∨ winAddr s.lVal ≤ a → t.mem.read a = s.mem.read a

/-- R152: with `L <= 1` both `GENWIN` and `WSAMP` raise `InvalidExponent`, and no sample is written; in a state that
meets R51 it is `L = 1` and `N = 0`. -/
def Obligations.WindowUndefinedFaults : Prop :=
  ∀ s : State, s.lVal ≤ 1 →
    exec .genwin s = .next { s with runState := .fault, cause := .invalidExponent, finfo := cmdValue .genwin } ∧
      (∀ idx, exec (.wsamp idx) s =
        .next { s with runState := .fault, cause := .invalidExponent, finfo := cmdValue (.wsamp idx) }) ∧
      (SpecInv s → s.lVal = 1 ∧ s.nVal = 0)

/-- `WSAMP idx` with `L >= 2` completes for every index: `RES0` is the sample, `RES1` is 0; nothing else changes but
`STATE`. -/
def Obligations.WsampCompletes : Prop :=
  ∀ (idx : Nat) (s : State), 2 ≤ s.lVal →
    exec (.wsamp idx) s = .next { s with res0 := tc64 (numWin s.params s.lVal idx), res1 := 0#64, runState := .done }

/-- `GENTW` completes: pair `k` holds `NUM.twre(L, k)` and `NUM.twim(L, k)` for every `k < M`, `TV` is 1; every register,
every other flag and every byte outside the `M` pairs is unchanged. -/
def Obligations.GentwCompletes : Prop :=
  ∀ s : State, ∃ t, exec .gentw s = .next t ∧
    (∀ k < s.mVal, t.twElem k false = some (tc64 (numTwre s.params s.lVal k)) ∧
      t.twElem k true = some (tc64 (numTwim s.params s.lVal k))) ∧
    t = { s with tv := true, runState := .done, mem := t.mem } ∧
    ∀ a, a < twAddr 0 false ∨ twAddr s.mVal false ≤ a → t.mem.read a = s.mem.read a

/-- R162: with `M = 0`, `GENTW` completes, sets `TV` and writes no cell; the table has no element to read. -/
def Obligations.EmptyTwiddleTable : Prop :=
  ∀ s : State, s.mVal = 0 → ∃ t, exec .gentw s = .next t ∧ t.tv = true ∧ t.runState = .done ∧
    (∀ a, t.mem.read a = s.mem.read a) ∧ ∀ k im, t.readTw k im = .accessFault

/-- `TWSAMP idx` completes for every index: `RES0` is the real part, `RES1` the imaginary part; nothing else changes but
`STATE`. -/
def Obligations.TwsampCompletes : Prop :=
  ∀ (idx : Nat) (s : State),
    exec (.twsamp idx) s = .next { s with
      res0 := tc64 (numTwre s.params s.lVal idx), res1 := tc64 (numTwim s.params s.lVal idx), runState := .done }

/-- `GENREV` completes: element `i` holds `reverseBits(i, N)` for every `i < L`, `RV` is 1; every register, every other
flag and every byte outside the `L` elements is unchanged. -/
def Obligations.GenrevCompletes : Prop :=
  ∀ s : State, ∃ t, exec .genrev s = .next t ∧
    (∀ i < s.lVal, t.revElem i = some (BitVec.ofNat 64 (reverseBits i s.nVal))) ∧
    t = { s with rv := true, runState := .done, mem := t.mem } ∧
    ∀ a, a < revAddr 0 ∨ revAddr s.lVal ≤ a → t.mem.read a = s.mem.read a

/-- `BITREV idx` completes for every index: `RES0` is `reverseBits(idx, N)`, which depends on `idx mod 2^N` only, `RES1`
is 0; nothing else changes but `STATE`. -/
def Obligations.BitrevCompletes : Prop :=
  ∀ (idx : Nat) (s : State),
    exec (.bitrev idx) s =
        .next { s with res0 := BitVec.ofNat 64 (reverseBits idx s.nVal), res1 := 0#64, runState := .done } ∧
      exec (.bitrev (idx % 2 ^ s.nVal)) s = exec (.bitrev idx) s

/-- `GENALL n` with `1 <= n <= NMAX` completes: the new lengths, three tables made with the new lengths, all flags 1;
`RES0`, `RES1`, `FINFO` and `CAUSE` are unchanged, and no byte outside the three tables has a value (log 6). -/
def Obligations.GenallCompletes : Prop :=
  ∀ (n : Nat) (s : State), s.params.wf = true → 1 ≤ n → n ≤ s.params.nmax → ∃ t, exec (.genall n) s = .next t ∧
    t = { s with
      regN := BitVec.ofNat 64 n, regL := BitVec.ofNat 64 (2 ^ n), regM := BitVec.ofNat 64 (2 ^ n / 2),
      wv := true, tv := true, rv := true, runState := .done, mem := t.mem } ∧
    (∀ i < 2 ^ n, t.winElem i = some (tc64 (numWin s.params (2 ^ n) i)) ∧
      t.revElem i = some (BitVec.ofNat 64 (reverseBits i n))) ∧
    (∀ k < 2 ^ n / 2, t.twElem k false = some (tc64 (numTwre s.params (2 ^ n) k)) ∧
      t.twElem k true = some (tc64 (numTwim s.params (2 ^ n) k))) ∧
    ∀ a, ¬(winAddr 0 ≤ a ∧ a < winAddr (2 ^ n)) → ¬(twAddr 0 false ≤ a ∧ a < twAddr (2 ^ n / 2) false) →
      ¬(revAddr 0 ≤ a ∧ a < revAddr (2 ^ n)) → t.mem.read a = none

/-- R188: `GENALL` has exactly two outcomes: every table valid and complete, or a fault with no table, no length and no
flag changed. -/
def Obligations.GenallAllOrNothing : Prop :=
  ∀ (n : Int) (s : State), s.params.wf = true → ∃ t, exec (.genall n) s = .next t ∧
    ((1 ≤ n ∧ n ≤ s.params.nmax ∧ t.runState = .done ∧ t.wv = true ∧ t.tv = true ∧ t.rv = true ∧ t.lVal = 2 ^ n.toNat ∧
        t.mVal = 2 ^ n.toNat / 2 ∧ (∀ i < t.lVal, t.readWin i = .value (tc64 (numWin s.params t.lVal i))) ∧
        (∀ k < t.mVal, t.readTw k false = .value (tc64 (numTwre s.params t.lVal k)) ∧
          t.readTw k true = .value (tc64 (numTwim s.params t.lVal k))) ∧
        ∀ i < t.lVal, t.readRev i = .value (BitVec.ofNat 64 (reverseBits i n.toNat))) ∨
      ((n < 1 ∨ (s.params.nmax : Int) < n) ∧
        t = { s with runState := .fault, cause := .invalidExponent, finfo := cmdValue (.genall n) }))

/-- R189: for `1 <= n <= NMAX`, `GENALL n` leaves the state that `DERIVE n` and then the three generators in any order
leave; for `n = 0` it faults while `DERIVE 0` completes and the later `GENWIN` faults; for `n < 0` or `n > NMAX` both
fault. -/
def Obligations.GenallEqualsComponents : Prop :=
  (∀ (n : Int) (s : State) (order : List Instr), s.params.wf = true → 1 ≤ n → n ≤ s.params.nmax →
      List.Perm order [.genwin, .gentw, .genrev] → execAll (.derive n :: order) s = exec (.genall n) s) ∧
    (∀ s : State, exec (.genall 0) s = .next (s.raise .invalidExponent (cmdValue (.genall 0))) ∧
      ∃ t, exec (.derive 0) s = .next t ∧ t.runState = .done ∧
        ∃ u, exec .genwin t = .next u ∧ u.runState = .fault ∧ u.cause = .invalidExponent) ∧
    ∀ (n : Int) (s : State), n < 0 ∨ (s.params.nmax : Int) < n →
      exec (.genall n) s = .next (s.raise .invalidExponent (cmdValue (.genall n))) ∧
        exec (.derive n) s = .next (s.raise .invalidExponent (cmdValue (.derive n)))

/-- No command or history but `n` and the parameters reaches what `GENALL n` makes: two runs that differ in everything
else end with the same lengths, tables and flags. That the whole memories are equal, cells outside the tables included,
is the model's reading of "unspecified" as no value (log 6, DEDUCED from spec/10_state.md R33 and
spec/93_implementation_defined.md U9). -/
def Obligations.GenerationDependsOnExponentOnly : Prop :=
  ∀ (n : Int) (s s' t t' : State), s.params = s'.params → 1 ≤ n → n ≤ s.params.nmax → exec (.genall n) s = .next t →
    exec (.genall n) s' = .next t' →
    t.regN = t'.regN ∧ t.regL = t'.regL ∧ t.regM = t'.regM ∧ t.mem = t'.mem ∧ t.wv = t'.wv ∧ t.tv = t'.tv ∧ t.rv = t'.rv ∧
      t.runState = t'.runState

/-! ### Bit reversal (spec/44_bit_reversal.md) -/

/-- R172: `reverseBits(i, N)` is the sum over `b < N` of `bit(i, b) * 2^(N-1-b)`, looks at bits below `N` only, lies below
`2^N`, and is 0 for `N = 0`. -/
def Obligations.ReverseBitsClosedForm : Prop :=
  ∀ i N : Nat, reverseBits i N = ∑ b ∈ Finset.range N, (i / 2 ^ b % 2) * 2 ^ (N - 1 - b) ∧
    reverseBits i N = reverseBits (i % 2 ^ N) N ∧ reverseBits i N ≤ 2 ^ N - 1 ∧ reverseBits i 0 = 0

/-- R173: the table is a permutation of `[0, L)`, `reverseBits` is an involution on it, the table has `2^N` entries, and
the fixed points are the palindromes. -/
def Obligations.ReverseBitsPermutation : Prop :=
  ∀ N : Nat, List.Perm ((List.range (2 ^ N)).map (fun i => reverseBits i N)) (List.range (2 ^ N)) ∧
    (∀ i < 2 ^ N, reverseBits (reverseBits i N) N = i) ∧ (revTable (2 ^ N) N).length = 2 ^ N ∧
    ∀ i < 2 ^ N, reverseBits i N = i ↔ ∀ b < N, i.testBit b = i.testBit (N - 1 - b)

/-! ### The whole machine -/

/-- After either reset, from any state, every state element has its reset value (spec/10_state.md section 7, R50) and `CAP`
is unchanged; the state is the one a completed `DERIVE 0` leaves but for `STATE`; `State.reset` is a fixed point of the
hardware reset. That no table cell has a value is the model's reading of "unspecified" (log 6, DEDUCED from
spec/10_state.md R33 and spec/93_implementation_defined.md U9). -/
def Obligations.ResetValues : Prop :=
  (∀ (s t : State) (op : HostOp), op.resets = true → hostStep op s = .next t →
      t.regN = 0#64 ∧ t.regL = 1#64 ∧ t.regM = 0#64 ∧ t.res0 = 0#64 ∧ t.res1 = 0#64 ∧ t.runState = .idle ∧ t.wv = false ∧
        t.tv = false ∧ t.rv = false ∧ t.cause = .none ∧ t.finfo = 0#64 ∧ t.csrValue .cap = s.csrValue .cap ∧
        (∀ a : Nat, t.mem.read a = none) ∧ t.csrValue .cmd = 0#64 ∧ t.csrValue .ctrl = 0#64 ∧
        exec (.derive 0) t = .next { t with runState := .done }) ∧
    hostStep .hardReset State.reset = .next State.reset

/-- The invariants hold right after reset. -/
def Obligations.ResetMeetsInvariants : Prop := Inv State.reset

/-- R51: its invariants hold after reset and every step keeps them, and `FAULT` is left by a reset only. -/
def Obligations.SpecInvariantsKept : Prop :=
  SpecInv State.reset ∧ ∀ s t : State, SpecInv s → step s = .next t →
    SpecInv t ∧ (s.runState = .fault → t.runState = .fault ∨ ∃ op ops, s.script = op :: ops ∧ op.resets = true)

/-- Every step keeps the model's whole invariant: R51, the canonical memory, a value in memory exactly where a valid
table has an element (log 6, the model's reading), no `IOFailure`, and an `IDLE` block is a block at reset. -/
def Obligations.StepKeepsInvariants : Prop := ∀ s t : State, Inv s → step s = .next t → Inv t

/-- From every state that meets R51 a step gives a next state: no command and no port access stops the machine
(log 7: the model's one fault is never raised). -/
def Obligations.EveryStepHasANextState : Prop := ∀ s : State, SpecInv s → ∃ t, step s = .next t

/-- spec/10_state.md section 5 (R34), step by step: while a table's flag stays 1 and the exponent is the same, no element of it changes. -/
def Obligations.ValidTablesDoNotChange : Prop :=
  ∀ s t : State, SpecInv s → step s = .next t → t.regN = s.regN →
    (s.wv = true → t.wv = true → ∀ i < s.lVal, t.winElem i = s.winElem i) ∧
      (s.tv = true → t.tv = true → ∀ k < s.mVal, ∀ im, t.twElem k im = s.twElem k im) ∧
      (s.rv = true → t.rv = true → ∀ i < s.lVal, t.revElem i = s.revElem i)

/-- R26: `RES0` and `RES1` hold the result of the last single-sample command that completed; no other command writes
them, and a command that faults does not. -/
def Obligations.ResultRegisters : Prop :=
  ∀ (i : Instr) (s t : State), s.runState ≠ .fault → exec i s = .next t →
    (t.runState = .fault → t.res0 = s.res0 ∧ t.res1 = s.res1) ∧
      (t.runState = .done →
        match i with
        | .wsamp idx  => t.res0 = tc64 (numWin s.params s.lVal idx) ∧ t.res1 = 0#64
        | .twsamp idx => t.res0 = tc64 (numTwre s.params s.lVal idx) ∧ t.res1 = tc64 (numTwim s.params s.lVal idx)
        | .bitrev idx => t.res0 = BitVec.ofNat 64 (reverseBits idx s.nVal) ∧ t.res1 = 0#64
        | .derive _   => t.res0 = s.res0 ∧ t.res1 = s.res1
        | .genall _   => t.res0 = s.res0 ∧ t.res1 = s.res1
        | .genwin     => t.res0 = s.res0 ∧ t.res1 = s.res1
        | .gentw      => t.res0 = s.res0 ∧ t.res1 = s.res1
        | .genrev     => t.res0 = s.res0 ∧ t.res1 = s.res1)

/-- Whatever the host does in one step, `N`, `L` and `M` change only by a `DERIVE` or `GENALL` with an accepted exponent,
or by a reset. -/
def Obligations.SizesWrittenOnlyByDeriveGenallReset : Prop :=
  ∀ (s t : State) (op : HostOp) (ops : List HostOp), s.script = op :: ops → step s = .next t →
    (t.regN = s.regN ∧ t.regL = s.regL ∧ t.regM = s.regM) ∨ op.resets = true ∨
      ∃ v n, op = cmdWrite v ∧ (decode v = .command (.derive n) ∨ decode v = .command (.genall n)) ∧ 0 ≤ n ∧
        n ≤ s.params.nmax ∧ t.regN = BitVec.ofInt 64 n

/-- The complete table of the events that write `WV`, `TV`, `RV` and `STATE` (spec/10_state.md section 6): commands that
complete, commands that fault, illegal values, resets; a refused access and any other host operation write none. -/
def Obligations.FlagsFollowTheEventTable : Prop :=
  (∀ (i : Instr) (s t : State), s.runState ≠ .fault → exec i s = .next t →
      (t.runState = .fault ∧ t.wv = s.wv ∧ t.tv = s.tv ∧ t.rv = s.rv) ∨
        (t.runState = .done ∧
          match i with
          | .derive _ => t.wv = false ∧ t.tv = false ∧ t.rv = false
          | .genwin   => t.wv = true ∧ t.tv = s.tv ∧ t.rv = s.rv
          | .gentw    => t.wv = s.wv ∧ t.tv = true ∧ t.rv = s.rv
          | .genrev   => t.wv = s.wv ∧ t.tv = s.tv ∧ t.rv = true
          | .genall _ => t.wv = true ∧ t.tv = true ∧ t.rv = true
          | .wsamp _  => t.wv = s.wv ∧ t.tv = s.tv ∧ t.rv = s.rv
          | .twsamp _ => t.wv = s.wv ∧ t.tv = s.tv ∧ t.rv = s.rv
          | .bitrev _ => t.wv = s.wv ∧ t.tv = s.tv ∧ t.rv = s.rv)) ∧
    (∀ (v : Reg) (s t : State), (∀ i, decode v ≠ .command i) → engine v s = .next t →
      t.runState = .fault ∧ t.wv = s.wv ∧ t.tv = s.tv ∧ t.rv = s.rv) ∧
    ∀ (s t : State) (op : HostOp) (ops : List HostOp), s.script = op :: ops → step s = .next t →
      (op.resets = true → t.runState = .idle ∧ t.wv = false ∧ t.tv = false ∧ t.rv = false) ∧
        (t.resp = .accessFault ∨ (op.resets = false ∧ ∀ v, op ≠ cmdWrite v) →
          t.runState = s.runState ∧ t.wv = s.wv ∧ t.tv = s.tv ∧ t.rv = s.rv)

/-- A sampler and the valid table agree at every index of the table. -/
def Obligations.SamplersAgreeWithTables : Prop :=
  ∀ (idx : Nat) (s : State), SpecInv s →
    (s.wv = true → idx < s.lVal → ∃ t, exec (.wsamp idx) s = .next t ∧ s.winElem idx = some t.res0) ∧
      (s.tv = true → idx < s.mVal → ∃ t, exec (.twsamp idx) s = .next t ∧ s.twElem idx false = some t.res0 ∧
        s.twElem idx true = some t.res1) ∧
      (s.rv = true → idx < s.lVal → ∃ t, exec (.bitrev idx) s = .next t ∧ s.revElem idx = some t.res0)

/-- With no host operation pending the block is idle and keeps all its state. -/
def Obligations.IdleBlockKeepsState : Prop := ∀ s : State, s.script = [] → step s = .next s

/-! ### The port (spec/20_memory.md, spec/10_state.md section 6) -/

/-- `STATUS` (R41): each field at its place, reserved bits 0, and no state composes a `STATE` of 3 or a `CAUSE` above 3. -/
def Obligations.StatusWordFields : Prop :=
  ∀ s : State,
    s.statusWord.extractLsb' 0 2 = (match s.runState with | .idle => 0#2 | .done => 1#2 | .fault => 2#2) ∧
      s.statusWord.getLsbD 2 = s.wv ∧ s.statusWord.getLsbD 3 = s.tv ∧ s.statusWord.getLsbD 4 = s.rv ∧
      s.statusWord.extractLsb' 5 3 = 0#3 ∧
      s.statusWord.extractLsb' 8 4 =
        (match s.cause with | .none => 0#4 | .invalidInvocation => 1#4 | .invalidExponent => 2#4 | .ioFailure => 3#4) ∧
      s.statusWord.extractLsb' 12 52 = 0#52

/-- A read of each of the ten registers returns its value and changes nothing but the host's side. -/
def Obligations.RegisterReads : Prop :=
  ∀ (s : State) (c : Csr) (ops : List HostOp), s.params.wf = true → s.script = .read (csrAddr c) 8 :: ops →
    step s = .next { s with
      script := ops
      resp := .data (match c with
        | .cmd    => 0#64
        | .status => s.statusWord
        | .ctrl   => 0#64
        | .cap    => BitVec.ofNat 64 s.params.nmax
        | .exp    => s.regN
        | .inlen  => s.regL
        | .outlen => s.regM
        | .res0   => s.res0
        | .res1   => s.res1
        | .finfo  => s.finfo) }

/-- R67: register reads return the value; `CMD` issues, `CTRL` acts as R42; writes to the other registers and every access
to an unlisted offset are refused. -/
def Obligations.RegisterAccesses : Prop :=
  (∀ (s : State) (c : Csr), s.portRead (csrAddr c) 8 = .value (s.csrValue c) ∧ s.csrValue .cmd = 0#64 ∧
      s.csrValue .ctrl = 0#64) ∧
    (∀ (s : State) (v : Reg), portWrite (csrAddr .cmd) 8 v s = writeCmd v s ∧
      portWrite (csrAddr .ctrl) 8 v s = writeCtrl v s) ∧
    (∀ (s : State) (c : Csr) (v : Reg), c ≠ .cmd → c ≠ .ctrl →
      portWrite (csrAddr c) 8 v s = .next { s with resp := .accessFault }) ∧
    ∀ (s : State) (addr : PortAddr) (v : Reg), regionOf addr = 0 → 0x50 ≤ addr.toNat →
      s.portRead addr 8 = .accessFault ∧ portWrite addr 8 v s = .next { s with resp := .accessFault }

/-- R66: an access of another width than 8 or at an address that is no multiple of 8 is refused, read or write, and
changes nothing. -/
def Obligations.OnlyAlignedEightByteAccesses : Prop :=
  ∀ (s : State) (addr : PortAddr) (width : Nat) (v : Reg), width ≠ 8 ∨ addr.toNat % 8 ≠ 0 →
    hostStep (.read addr width) s = .next { s with resp := .accessFault } ∧
      hostStep (.write addr width v) s = .next { s with resp := .accessFault }

/-- R68: a table read, for every index of the aperture: refused while the flag is 0 or at or above the length, else the
element, sign-extended or zero-extended by its format. -/
def Obligations.TableReads : Prop :=
  ∀ s : State, SpecInv s →
    (∀ i < 2 ^ 24, s.portRead (BitVec.ofNat 29 (winAddr i)) 8 =
      if s.wv = false ∨ s.lVal ≤ i then .accessFault else .value (tc64 (numWin s.params s.lVal i))) ∧
    (∀ k < 2 ^ 23, s.portRead (BitVec.ofNat 29 (twAddr k false)) 8 =
        (if s.tv = false ∨ s.mVal ≤ k then .accessFault else .value (tc64 (numTwre s.params s.lVal k))) ∧
      s.portRead (BitVec.ofNat 29 (twAddr k true)) 8 =
        if s.tv = false ∨ s.mVal ≤ k then .accessFault else .value (tc64 (numTwim s.params s.lVal k))) ∧
    ∀ i < 2 ^ 24, s.portRead (BitVec.ofNat 29 (revAddr i)) 8 =
      if s.rv = false ∨ s.lVal ≤ i then .accessFault else .value (BitVec.ofNat 64 (reverseBits i s.nVal))

/-- R64: bits [8j+7 : 8j] of a table element the port returns are the byte at address `addr + j`. -/
def Obligations.LittleEndianByteLanes : Prop :=
  ∀ (s : State) (addr : PortAddr) (v : Reg), regionOf addr ≠ 0 → s.portRead addr 8 = .value v →
    ∀ j < 8, s.mem.read (addr.toNat + j) = some (v.extractLsb' (8 * j) 8)

/-- R69: the host cannot write a table: such a write is refused and changes nothing, and a byte of memory that a step has
given a value comes from one of the four generating commands. -/
def Obligations.HostCannotWriteTables : Prop :=
  (∀ (s : State) (addr : PortAddr) (width : Nat) (v : Reg),
      regionOf addr = 1 ∨ regionOf addr = 2 ∨ regionOf addr = 3 →
      hostStep (.write addr width v) s = .next { s with resp := .accessFault }) ∧
    ∀ (s t : State) (op : HostOp) (ops : List HostOp) (a : Nat) (b : Byte), s.script = op :: ops → step s = .next t →
      t.mem.read a = some b → s.mem.read a = some b ∨
        ∃ v i, op = cmdWrite v ∧ decode v = .command i ∧ (i = .genwin ∨ i = .gentw ∨ i = .genrev ∨ ∃ n, i = .genall n)

/-- R70: an access is refused exactly for its causes (a) to (e), and a refused access changes no state of FTG. -/
def Obligations.AccessFaultCausesAndEffect : Prop :=
  ∀ (s t : State) (op : HostOp) (ops : List HostOp), s.script = op :: ops → step s = .next t →
    (t.resp = .accessFault ↔ s.refuses op) ∧ (t.resp = .accessFault → t.block = s.block)

/-- R71: no read has a side effect, and reading twice gives the same value; the only accesses with one are the writes to
`CMD` and to `CTRL` with bit 0 set. -/
def Obligations.ReadsHaveNoSideEffect : Prop :=
  (∀ (s t u : State) (addr : PortAddr) (width : Nat) (ops : List HostOp),
      s.script = .read addr width :: .read addr width :: ops → step s = .next t → step t = .next u →
      t.block = s.block ∧ u.block = s.block ∧ u.resp = t.resp) ∧
    ∀ (s t : State) (addr : PortAddr) (width : Nat) (v : Reg) (ops : List HostOp),
      s.script = .write addr width v :: ops → step s = .next t →
      t.block = s.block ∨ (addr = csrAddr .cmd ∧ width = 8) ∨ (addr = csrAddr .ctrl ∧ width = 8 ∧ v.getLsbD 0 = true)

/-- R42: a write to `CTRL` with bit 0 set puts every piece of state at its reset value, as the hardware reset does; one
with bit 0 clear does nothing, whatever its other bits are; a read gives 0; nothing but these two resets leaves `FAULT`. -/
def Obligations.SoftReset : Prop :=
  ∀ (s : State) (v : Reg),
    (v.getLsbD 0 = true → hostStep (.write (csrAddr .ctrl) 8 v) s =
      .next { State.reset with params := s.params, script := s.script, resp := .ack }) ∧
    (v.getLsbD 0 = false → hostStep (.write (csrAddr .ctrl) 8 v) s = .next { s with resp := .ack }) ∧
    hostStep (.read (csrAddr .ctrl) 8) s = .next { s with resp := .data 0#64 } ∧
    hostStep .hardReset s = .next { State.reset with params := s.params, script := s.script, resp := .none } ∧
    ∀ (op : HostOp) (t : State), s.runState = .fault → hostStep op s = .next t → t.runState ≠ .fault →
      op = .hardReset ∨ ∃ w : Reg, w.getLsbD 0 = true ∧ op = .write (csrAddr .ctrl) 8 w

/-- R230: the hardware reset and the soft reset have one effect, in every state, `FAULT` included. -/
def Obligations.BothResetsHaveOneEffect : Prop :=
  ∀ (s : State) (v : Reg), v.getLsbD 0 = true → ∃ t u, hostStep .hardReset s = .next t ∧
    hostStep (.write (csrAddr .ctrl) 8 v) s = .next u ∧ t.block = u.block ∧
    t.block = { State.reset with params := s.params }

/-! ### Numerics (spec/40_numerics.md) -/

/-- R122: the quantiser gives the integer nearest to `v * SCALE`, of two equally near the even one; the model's integer
quantiser is that function on every rational number. -/
def Obligations.QuantiserRoundsToNearestEven : Prop :=
  (∀ v : ℝ, |v * SCALE - q10Real v| ≤ 1 / 2 ∧ (∀ m : Int, |v * SCALE - m| < 1 / 2 → q10Real v = m) ∧
      (|v * SCALE - q10Real v| = 1 / 2 → q10Real v % 2 = 0)) ∧
    ∀ (num : Int) (den : Nat), 0 < den → q10 num den = q10Real ((num : ℝ) / den)

/-- The fixed-point evaluation lies within `turnError` units of its last place of the ideal values, at every precision of
at least 64 bits (the method is the model's choice, log 1). -/
def Obligations.FixedPointIsWithinBound : Prop :=
  ∀ p L i : Nat, 64 ≤ p →
    (2 ≤ L → |(winFix p L i : ℝ) / (100000 * 2 ^ p) - wExact L i| ≤ turnError / 2 ^ p) ∧
      (1 ≤ L → |(cosTurn p i L : ℝ) / 2 ^ p - twReExact L i| ≤ turnError / 2 ^ p ∧
        |(sinTurn p i L : ℝ) / 2 ^ p - twImExact L i| ≤ turnError / 2 ^ p)

/-- R123 and R124: where the parameters name no deviation, `NUM` is the ideal value rounded to nearest, for every length
and every index. -/
def Obligations.ReferenceIsTheRoundedIdealValue : Prop :=
  ∀ (p : Config.Params) (L i : Nat), p.numDev = [] →
    (2 ≤ L → numWin p L i = q10Real (wExact L i)) ∧
      (1 ≤ L → numTwre p L i = q10Real (twReExact L i) ∧ numTwim p L i = q10Real (twImExact L i))

/-- The reference instance satisfies `NumOK(1/2)`, and so `NumOK(EPSQ)` for every `EPSQ` from 1/2 to 3. -/
def Obligations.ReferenceSatisfiesNumOK : Prop :=
  ∀ (p : Config.Params) (eps : ℝ), p.numDev = [] → 1 / 2 ≤ eps → eps ≤ 3 → NumOK p eps

/-- The document's two tolerance properties, for every `NUM` with `NumOK`: the twiddle pairs lie on the unit circle
within 10^-9, and the window's end points are equal within 10^-9. -/
def Obligations.ToleranceProperties : Prop :=
  ∀ (p : Config.Params) (eps : ℝ), NumOK p eps → p.wf = true → ∀ N : Nat, N ≤ p.nmax →
    (∀ k < 2 ^ 24, |((numTwre p (2 ^ N) k : ℝ) / SCALE) ^ 2 + ((numTwim p (2 ^ N) k : ℝ) / SCALE) ^ 2 - 1| < 1 / 10 ^ 9) ∧
      (1 ≤ N → |((numWin p (2 ^ N) 0 : ℝ) / SCALE) - (numWin p (2 ^ N) (2 ^ N - 1) : ℝ) / SCALE| < 1 / 10 ^ 9)

/-- R128: under `NumOK` every Q10 value lies in `-(SCALE + 3) .. SCALE + 3` and its 64-bit image reads back as itself; in
the reference instance it lies in `-SCALE .. SCALE`. -/
def Obligations.ElementsFitTheirCells : Prop :=
  (∀ (p : Config.Params) (eps : ℝ), NumOK p eps → ∀ N idx : Nat, N ≤ p.nmax → idx < 2 ^ 24 →
      ∀ q : Int, (q = numWin p (2 ^ N) idx ∧ 1 ≤ N ∨ q = numTwre p (2 ^ N) idx ∨ q = numTwim p (2 ^ N) idx) →
        |q| ≤ SCALE + 3 ∧ |q| < 2 ^ 34 ∧ (tc64 q).toInt = q) ∧
    ∀ L i : Nat, (2 ≤ L → |refWin L i| ≤ SCALE) ∧ (1 ≤ L → |refTwre L i| ≤ SCALE ∧ |refTwim L i| ≤ SCALE)

/-- The exact special values of the reference instance: the window's end points and its third points, and the twiddle at
no turn, an eighth, a quarter and three eighths of a turn; and no ideal value of any length and index is a tie. -/
def Obligations.ReferenceSpecialValues : Prop :=
  (∀ L : Nat, 2 ≤ L → refWin L 0 = 600000 ∧ refWin L (L - 1) = 600000) ∧
    (∀ i : Nat, 1 ≤ i → refWin (3 * i + 1) i = 5205750000 ∧ refWin (3 * i + 1) (2 * i) = 5205750000) ∧
    (∀ L : Nat, 1 ≤ L → refTwre L 0 = SCALE ∧ refTwim L 0 = 0) ∧
    (∀ j : Nat, 1 ≤ j → refTwre (4 * j) j = 0 ∧ refTwim (4 * j) j = SCALE) ∧
    (∀ j : Nat, 1 ≤ j → refTwre (8 * j) j = 7071067812 ∧ refTwim (8 * j) j = 7071067812 ∧
      refTwre (8 * j) (3 * j) = -7071067812 ∧ refTwim (8 * j) (3 * j) = 7071067812) ∧
    ∀ (L i : Nat) (m : Int), (2 ≤ L → SCALE * wExact L i ≠ m + 1 / 2) ∧
      (1 ≤ L → SCALE * twReExact L i ≠ m + 1 / 2 ∧ SCALE * twImExact L i ≠ m + 1 / 2)

/-- The symmetries and periods of the reference instance: the window is symmetric and has period `L - 1`, the twiddle
table has `TW[M-k] = (-re, im)` and period `L`. -/
def Obligations.ReferenceSymmetries : Prop :=
  (∀ L i : Nat, 2 ≤ L → i ≤ L - 1 → refWin L (L - 1 - i) = refWin L i) ∧
    (∀ L i : Nat, 2 ≤ L → refWin L i = refWin L (i % (L - 1))) ∧
    (∀ M k : Nat, 1 ≤ k → k < M → refTwre (2 * M) (M - k) = -refTwre (2 * M) k ∧
      refTwim (2 * M) (M - k) = refTwim (2 * M) k) ∧
    ∀ L k : Nat, 1 ≤ L → refTwre L k = refTwre L (k % L) ∧ refTwim L k = refTwim L (k % L)

/-- R130: the printed form is a minus sign for a negative value, the integer part, a point and exactly ten digits, and
the digits give the value back. -/
def Obligations.PrintedFormHasTenDecimals : Prop :=
  ∀ q : Int, ∃ whole frac : List Char,
    render10 q = (if q < 0 then ['-'] else []) ++ whole ++ ['.'] ++ frac ∧ frac.length = 10 ∧
      parseDigits 10 whole = some (q.natAbs / SCALE) ∧ parseDigits 10 frac = some (q.natAbs % SCALE) ∧
      (whole.head? = some '0' → whole = ['0']) ∧ (q.natAbs ≤ SCALE + 3 → whole = ['0'] ∨ whole = ['1'])

/-- The end of a whole-tool run (spec/70_reset_and_hazards.md R232, spec/60_exceptions.md R215): from a block that holds no
fault, `GENALL n` with an accepted `n` ends well with `STATUS = 0x1D` and exit code 0, and with any other `n` ends badly
with exit code 1. -/
def Obligations.WholeToolRunEnds : Prop :=
  ∀ (n : Int) (s : State), s.runState ≠ .fault → s.cause = .none → ∃ t, exec (.genall n) s = .next t ∧
    (1 ≤ n ∧ n ≤ s.params.nmax → t.endedWell ∧ t.statusWord = 0x1D#64 ∧ t.exitCode = some 0) ∧
      (n < 1 ∨ (s.params.nmax : Int) < n → t.endedBadly ∧ t.exitCode = some 1 ∧ t.cause = .invalidExponent)
end

