-- ==== Sys2Proof/Laws/Enclosure.lean ====
section
/-! SUPPORT. How far the fixed-point pieces of Machine/Numerics.lean lie from the real values, at every precision `p`:
`π` by Machin's formula, the cosine series, one doubling of the angle. -/

namespace Sys2Proof.Machine

/-- Integer division lies within 1 of the real quotient. -/
theorem ediv_near (a : Int) {n : Int} (hn : 0 < n) : |((a / n : Int) : ℝ) - a / n| ≤ 1 := by
  have h1 : ((a / n : Int) : ℝ) * n ≤ a := by exact_mod_cast Int.ediv_mul_le a hn.ne'
  have h2 : (a : ℝ) ≤ (((a / n : Int) : ℝ) + 1) * n := by
    exact_mod_cast (Int.lt_ediv_add_one_mul_self a hn).le
  have hn' : (0 : ℝ) < n := by exact_mod_cast hn
  rw [abs_sub_comm, abs_of_nonneg (by rw [sub_nonneg, le_div_iff₀ hn']; exact h1), sub_le_iff_le_add,
    div_le_iff₀ hn']
  linarith

/-! ### `π` -/

/-- Gregory's series in real numbers. -/
noncomputable def arctanTailReal (q : Nat) : Nat → Nat → ℝ
  | 0, _     => 0
  | k + 1, m => 1 / (2 * m + 1 : Nat) - arctanTailReal q k (m + 1) / (q ^ 2 : Nat)

/-- The integer series lies within 3 units of the real one. -/
theorem arctanTail_near (p : Nat) {q : Nat} (hq : 2 ≤ q) (k m : Nat) :
    |(arctanTail p q k m : ℝ) - 2 ^ p * arctanTailReal q k m| ≤ 3 := by
  induction k generalizing m with
  | zero => simp [arctanTail, arctanTailReal]
  | succ k ih =>
    have hq2 : (4 : ℝ) ≤ ((q ^ 2 : Nat) : ℝ) := by exact_mod_cast (show 2 ^ 2 ≤ q ^ 2 from Nat.pow_le_pow_left hq 2)
    have hq0 : (0 : Int) < ((q ^ 2 : Nat) : Int) := by exact_mod_cast (show 0 < q ^ 2 by positivity)
    have h1 := ediv_near (2 ^ p) (n := ((2 * m + 1 : Nat) : Int)) (by positivity)
    have h2 := ediv_near (arctanTail p q k (m + 1)) hq0
    have h3 := ih (m + 1)
    have h4 : |(arctanTail p q k (m + 1) : ℝ) / (q ^ 2 : Nat) - 2 ^ p * arctanTailReal q k (m + 1) / (q ^ 2 : Nat)| ≤ 1 := by
      rw [← sub_div, abs_div, abs_of_pos (by linarith : (0 : ℝ) < ((q ^ 2 : Nat) : ℝ)), div_le_one (by linarith)]
      linarith
    rw [arctanTail, arctanTailReal, mul_sub, mul_one_div, ← mul_div_assoc]
    rw [Int.cast_sub]
    rw [abs_le] at *
    push_cast at *
    constructor <;> linarith

/-- The real series is a partial sum of Gregory's series. -/
theorem arctanTailReal_eq {q : Nat} (hq : 1 ≤ q) (k m : Nat) :
    (-1) ^ m * (1 / (q : ℝ)) ^ (2 * m + 1) * arctanTailReal q k m =
      ∑ j ∈ Finset.range k, (-1) ^ (m + j) * ((1 / (q : ℝ)) ^ (2 * (m + j) + 1) / (2 * (m + j) + 1 : Nat)) := by
  have hq' : (q : ℝ) ≠ 0 := by positivity
  induction k generalizing m with
  | zero => simp [arctanTailReal]
  | succ k ih =>
    rw [Finset.sum_range_succ', arctanTailReal]
    have := ih (m + 1)
    simp only [show ∀ j, m + 1 + j = m + (j + 1) by intro j; ring] at this
    rw [← this]
    have e : arctanTailReal q k (m + 1) / (q ^ 2 : Nat) = (1 / (q : ℝ)) ^ 2 * arctanTailReal q k (m + 1) := by
      push_cast; rw [one_div_pow]; ring
    rw [e]
    simp only [Nat.add_zero]
    ring

/-- The partial sum of `k` terms lies within the next term of `arctan(1/q)`. -/
theorem arctan_near {q : Nat} (hq : 2 ≤ q) (k : Nat) :
    |Real.arctan (q : ℝ)⁻¹ - 1 / q * arctanTailReal q k 0| ≤ 1 / (q : ℝ) ^ (2 * k + 1) := by
  have hq0 : (0 : ℝ) < q := by positivity
  have hq1 : 1 / (q : ℝ) ≤ 1 := by rw [div_le_one hq0]; exact_mod_cast (by omega : 1 ≤ q)
  have hs := Real.hasSum_arctan (x := 1 / q) (by
    rw [Real.norm_of_nonneg (by positivity), div_lt_one hq0]; exact_mod_cast (by omega : 1 < q))
  have e : ∀ n : Nat, (-1 : ℝ) ^ n * (1 / (q : ℝ)) ^ (2 * n + 1) / (2 * n + 1 : Nat) =
      (-1) ^ n * ((1 / (q : ℝ)) ^ (2 * n + 1) / (2 * n + 1 : Nat)) := fun n => by rw [mul_div_assoc]
  simp only [e] at hs
  have hb := alternating_series_error_bound (fun n : Nat => (1 / (q : ℝ)) ^ (2 * n + 1) / (2 * n + 1 : Nat)) (by
      refine antitone_nat_of_succ_le fun n => ?_
      exact div_le_div₀ (by positivity) (pow_le_pow_of_le_one (by positivity) hq1 (by omega)) (by positivity)
        (by exact_mod_cast (by omega : 2 * n + 1 ≤ 2 * (n + 1) + 1))) (by
      exact hs.summable.alternating.congr fun n => by
        rw [← mul_assoc, ← mul_pow]; simp) k
  rw [hs.tsum_eq] at hb
  have h0 := arctanTailReal_eq (q := q) (by omega) k 0
  simp only [pow_zero, mul_zero, zero_add, pow_one, one_mul] at h0
  rw [inv_eq_one_div, h0]
  refine hb.trans ?_
  rw [one_div_pow]
  exact div_le_self (by positivity) (by exact_mod_cast (by omega : 1 ≤ 2 * k + 1))

/-- `arctanInv` lies within 2 units of `arctan(1/q)`. -/
theorem arctanInv_near (p : Nat) {q : Nat} (hq : 5 ≤ q) :
    |(arctanInv p q : ℝ) - 2 ^ p * Real.arctan (q : ℝ)⁻¹| ≤ 2 := by
  have hq0 : (5 : ℝ) ≤ q := by exact_mod_cast hq
  have h1 := ediv_near (arctanTail p q (p / 4 + 1) 0) (n := (q : Int)) (by omega)
  have h2 := arctanTail_near p (q := q) (by omega) (p / 4 + 1) 0
  have h3 := arctan_near (q := q) (by omega) (p / 4 + 1)
  have h2' : |(arctanTail p q (p / 4 + 1) 0 : ℝ) / q - 2 ^ p * (1 / q * arctanTailReal q (p / 4 + 1) 0)| ≤ 3 / 5 := by
    rw [show (2 : ℝ) ^ p * (1 / q * arctanTailReal q (p / 4 + 1) 0) = 2 ^ p * arctanTailReal q (p / 4 + 1) 0 / q by ring,
      ← sub_div, abs_div, abs_of_pos (by linarith : (0 : ℝ) < q), div_le_div_iff₀ (by linarith) (by norm_num)]
    linarith
  have h3' : |2 ^ p * (1 / q * arctanTailReal q (p / 4 + 1) 0) - 2 ^ p * Real.arctan (q : ℝ)⁻¹| ≤ 1 / 5 := by
    rw [← mul_sub, abs_mul, abs_of_pos (by positivity : (0 : ℝ) < 2 ^ p), abs_sub_comm]
    refine (mul_le_mul_of_nonneg_left h3 (by positivity)).trans ?_
    rw [mul_one_div, pow_succ, div_mul_eq_div_div]
    have : (2 : ℝ) ^ p ≤ (q : ℝ) ^ (2 * (p / 4 + 1)) := by
      calc (2 : ℝ) ^ p ≤ 2 ^ (4 * (p / 4 + 1)) := pow_le_pow_right₀ (by norm_num) (by omega)
        _ = 4 ^ (2 * (p / 4 + 1)) := by rw [show (4 : ℝ) = 2 ^ 2 by norm_num, ← pow_mul]; congr 1; ring
        _ ≤ (q : ℝ) ^ (2 * (p / 4 + 1)) := pow_le_pow_left₀ (by norm_num) (by linarith) _
    rw [div_div, div_le_div_iff₀ (by positivity) (by norm_num)]
    nlinarith [pow_pos (by linarith : (0 : ℝ) < q) (2 * (p / 4 + 1))]
  rw [arctanInv]
  rw [abs_le] at *
  push_cast at *
  constructor <;> linarith

/-- `piFix` lies within 40 units of `π`. -/
theorem piFix_near (p : Nat) : |(piFix p : ℝ) - 2 ^ p * Real.pi| ≤ 40 := by
  have h5 := arctanInv_near p (q := 5) (by norm_num)
  have h239 := arctanInv_near p (q := 239) (by norm_num)
  have hm : Real.pi = 4 * (4 * Real.arctan 5⁻¹ - Real.arctan 239⁻¹) := by
    rw [Real.four_mul_arctan_inv_5_sub_arctan_inv_239]; ring
  rw [hm, piFix]
  push_cast at *
  rw [abs_le] at *
  constructor <;> nlinarith


/-! ### The cosine -/

/-- The cosine series in real numbers. -/
noncomputable def cosTailReal (x : ℝ) : Nat → Nat → ℝ
  | 0, _     => 0
  | k + 1, m => 1 - x ^ 2 / ((2 * m + 1) * (2 * m + 2) : Nat) * cosTailReal x k (m + 1)

/-- The integer series lies within 2 units of the real one, for an angle of at most 1. -/
theorem cosTail_near (p : Nat) {x : Int} (hx : |(x : ℝ)| ≤ 2 ^ p) (k m : Nat) :
    |(cosTail p (x * x) k m : ℝ) - 2 ^ p * cosTailReal (x / 2 ^ p) k m| ≤ 2 := by
  induction k generalizing m with
  | zero => simp [cosTail, cosTailReal]
  | succ k ih =>
    have hc : (2 : ℝ) ≤ (((2 * m + 1) * (2 * m + 2) : Nat) : ℝ) := by
      exact_mod_cast (show 2 ≤ (2 * m + 1) * (2 * m + 2) by nlinarith)
    rw [cosTail, cosTailReal]
    generalize ((2 * m + 1) * (2 * m + 2) : Nat) = c at hc
    have hp : (0 : ℝ) < 2 ^ p := by positivity
    have hp4 : (4 : ℝ) ^ p = 2 ^ p * 2 ^ p := by rw [← mul_pow]; norm_num
    have hd : (0 : Int) < ((4 ^ p * c : Nat) : Int) := by
      have : 0 < c := by have : (0 : ℝ) < c := by linarith
                         exact_mod_cast this
      positivity
    have h1 := ediv_near (x * x * cosTail p (x * x) k (m + 1)) hd
    have h2 := ih (m + 1)
    have hx2 : ((x : ℝ) / 2 ^ p) ^ 2 ≤ 1 := by
      rw [sq_le_one_iff_abs_le_one, abs_div, abs_of_pos hp, div_le_one hp]; exact hx
    have h3 : |((x * x * cosTail p (x * x) k (m + 1) : Int) : ℝ) / (4 ^ p * c : Nat) -
        2 ^ p * (((x : ℝ) / 2 ^ p) ^ 2 / c * cosTailReal (x / 2 ^ p) k (m + 1))| ≤ 1 := by
      have e : ((x * x * cosTail p (x * x) k (m + 1) : Int) : ℝ) / (4 ^ p * c : Nat) -
          2 ^ p * (((x : ℝ) / 2 ^ p) ^ 2 / c * cosTailReal (x / 2 ^ p) k (m + 1)) =
          ((x : ℝ) / 2 ^ p) ^ 2 / c * (cosTail p (x * x) k (m + 1) - 2 ^ p * cosTailReal (x / 2 ^ p) k (m + 1)) := by
        push_cast; rw [hp4]; field_simp
      rw [e, abs_mul, abs_of_nonneg (by positivity)]
      have : ((x : ℝ) / 2 ^ p) ^ 2 / c ≤ 1 / 2 := by
        rw [div_le_div_iff₀ (by linarith) (by norm_num)]; linarith
      nlinarith [abs_nonneg ((cosTail p (x * x) k (m + 1) : ℝ) - 2 ^ p * cosTailReal (x / 2 ^ p) k (m + 1)),
        (by positivity : 0 ≤ ((x : ℝ) / 2 ^ p) ^ 2 / c)]
    rw [Int.cast_sub, mul_sub, mul_one]
    rw [abs_le] at *
    push_cast at *
    constructor <;> linarith

/-- The real series is a partial sum of the cosine series. -/
theorem cosTailReal_eq (x : ℝ) (k m : Nat) :
    (-1) ^ m * (x ^ (2 * m) / (2 * m).factorial) * cosTailReal x k m =
      ∑ j ∈ Finset.range k, (-1) ^ (m + j) * (x ^ (2 * (m + j)) / (2 * (m + j)).factorial) := by
  induction k generalizing m with
  | zero => simp [cosTailReal]
  | succ k ih =>
    rw [Finset.sum_range_succ', cosTailReal]
    have := ih (m + 1)
    simp only [show ∀ j, m + 1 + j = m + (j + 1) by intro j; ring] at this
    rw [← this]
    have e : x ^ (2 * (m + 1)) / ((2 * (m + 1)).factorial : ℝ) =
        x ^ (2 * m) / (2 * m).factorial * (x ^ 2 / ((2 * m + 1) * (2 * m + 2) : Nat)) := by
      rw [show 2 * (m + 1) = 2 * m + 1 + 1 by ring, Nat.factorial_succ, Nat.factorial_succ, pow_succ, pow_succ,
        div_mul_div_comm]
      push_cast; ring
    rw [e]
    simp only [Nat.add_zero]
    ring

/-- The partial sum of `k` terms lies within the next term of the cosine. -/
theorem cos_near {x : ℝ} (hx : |x| ≤ 1) (k : Nat) :
    |Real.cos x - cosTailReal x k 0| ≤ 1 / (2 * k).factorial := by
  have hs := Real.hasSum_cos x
  simp only [mul_div_assoc] at hs
  have hx2 : x ^ 2 ≤ 1 := by rwa [sq_le_one_iff_abs_le_one]
  have hb := alternating_series_error_bound (fun n : Nat => x ^ (2 * n) / ((2 * n).factorial : ℝ)) (by
      refine antitone_nat_of_succ_le fun n => ?_
      rw [pow_mul, pow_mul]
      exact div_le_div₀ (by positivity) (pow_le_pow_of_le_one (by positivity) hx2 (by omega)) (by positivity)
        (by exact_mod_cast Nat.factorial_le (by omega))) (by
      exact hs.summable.alternating.congr fun n => by rw [← mul_assoc, ← mul_pow]; simp) k
  rw [hs.tsum_eq] at hb
  have h0 := cosTailReal_eq x k 0
  simp only [pow_zero, mul_zero, zero_add, Nat.factorial_zero, Nat.cast_one, div_one, one_mul] at h0
  rw [h0]
  refine hb.trans (div_le_div_of_nonneg_right ?_ (by positivity))
  rw [pow_mul]
  exact pow_le_one₀ (by positivity) hx2

/-- The series is long enough for `p` bits. -/
theorem two_pow_le_factorial (p : Nat) : 2 ^ p ≤ (2 * (p / 4 + 2)).factorial := by
  have h : ∀ n, 2 ^ (2 * n) ≤ (n + 2).factorial := by
    intro n
    induction n with
    | zero => norm_num
    | succ n ih =>
      rcases Nat.lt_or_ge n 1 with hn | hn
      · rw [show n = 0 by omega]; decide
      · rw [show n + 1 + 2 = n + 2 + 1 by ring, Nat.factorial_succ, show 2 * (n + 1) = 2 * n + 2 by ring, pow_add]
        nlinarith
  refine le_trans (Nat.pow_le_pow_right (by norm_num) ?_) ((h (2 * (p / 4) + 2)).trans (by
    rw [show 2 * (p / 4) + 2 + 2 = 2 * (p / 4 + 2) by ring]))
  omega

/-- `cosSmall` lies within 3 units of the cosine, for an angle of at most 1. -/
theorem cosSmall_near (p : Nat) {x : Int} (hx : |(x : ℝ)| ≤ 2 ^ p) :
    |(cosSmall p x : ℝ) - 2 ^ p * Real.cos (x / 2 ^ p)| ≤ 3 := by
  have hp : (0 : ℝ) < 2 ^ p := by positivity
  have h1 := cosTail_near p hx (p / 4 + 2) 0
  have h2 := cos_near (x := x / 2 ^ p) (by rwa [abs_div, abs_of_pos hp, div_le_one hp]) (p / 4 + 2)
  have h3 : |2 ^ p * cosTailReal (x / 2 ^ p) (p / 4 + 2) 0 - 2 ^ p * Real.cos (x / 2 ^ p)| ≤ 1 := by
    rw [← mul_sub, abs_mul, abs_of_pos hp, abs_sub_comm]
    refine (mul_le_mul_of_nonneg_left h2 hp.le).trans ?_
    rw [mul_one_div, div_le_one (by positivity)]
    exact_mod_cast two_pow_le_factorial p
  rw [cosSmall]
  rw [abs_le] at *
  constructor <;> linarith

/-- One doubling of the angle takes an error of `e` units to at most `4e + 3`. -/
theorem cosDouble_near {p : Nat} {c : Int} {x e : ℝ} (h : |(c : ℝ) - 2 ^ p * Real.cos x| ≤ e) (he : e ^ 2 ≤ 2 ^ p) :
    |(cosDouble p c : ℝ) - 2 ^ p * Real.cos (2 * x)| ≤ 4 * e + 3 := by
  have hp : (0 : ℝ) < 2 ^ p := by positivity
  have h1 := ediv_near (2 * c * c) (n := 2 ^ p) (by positivity)
  have he0 : 0 ≤ e := (abs_nonneg _).trans h
  have hc : |Real.cos x| ≤ 1 := Real.abs_cos_le_one x
  have h2 : |((2 * c * c : Int) : ℝ) / 2 ^ p - 2 ^ p * (2 * Real.cos x ^ 2)| ≤ 4 * e + 2 := by
    have e1 : ((2 * c * c : Int) : ℝ) / 2 ^ p - 2 ^ p * (2 * Real.cos x ^ 2) =
        2 * ((c - 2 ^ p * Real.cos x) ^ 2 / 2 ^ p) + 4 * Real.cos x * (c - 2 ^ p * Real.cos x) := by
      push_cast; field_simp; ring
    rw [e1]
    refine (abs_add_le _ _).trans ?_
    have a1 : (c - 2 ^ p * Real.cos x) ^ 2 / 2 ^ p ≤ 1 := by
      rw [div_le_one hp]
      refine le_trans ?_ he
      rw [← sq_abs]
      exact pow_le_pow_left₀ (abs_nonneg _) h 2
    rw [abs_of_nonneg (by positivity : (0 : ℝ) ≤ 2 * ((c - 2 ^ p * Real.cos x) ^ 2 / 2 ^ p)), abs_mul, abs_mul,
      abs_of_pos (by norm_num : (0 : ℝ) < 4)]
    nlinarith [abs_nonneg (Real.cos x), abs_nonneg (c - 2 ^ p * Real.cos x)]
  rw [cosDouble, Real.cos_two_mul]
  rw [abs_le] at *
  push_cast at *
  constructor <;> linarith

end Sys2Proof.Machine
end

