-- ==== Sys2Proof/Laws/State.lean ====
section
/-! SUPPORT. One lemma per field per update of State, and per derived reading, all true by unfolding one definition: no
later proof unfolds a record update. -/

namespace Sys2Proof.Machine

variable (s : State)

/-! ### `setSizes` -/

@[simp] theorem State.setSizes_regN (n l m : Reg) : (s.setSizes n l m).regN = n := rfl
@[simp] theorem State.setSizes_regL (n l m : Reg) : (s.setSizes n l m).regL = l := rfl
@[simp] theorem State.setSizes_regM (n l m : Reg) : (s.setSizes n l m).regM = m := rfl
@[simp] theorem State.setSizes_res0 (n l m : Reg) : (s.setSizes n l m).res0 = s.res0 := rfl
@[simp] theorem State.setSizes_res1 (n l m : Reg) : (s.setSizes n l m).res1 = s.res1 := rfl
@[simp] theorem State.setSizes_runState (n l m : Reg) : (s.setSizes n l m).runState = s.runState := rfl
@[simp] theorem State.setSizes_cause (n l m : Reg) : (s.setSizes n l m).cause = s.cause := rfl
@[simp] theorem State.setSizes_wv (n l m : Reg) : (s.setSizes n l m).wv = s.wv := rfl
@[simp] theorem State.setSizes_tv (n l m : Reg) : (s.setSizes n l m).tv = s.tv := rfl
@[simp] theorem State.setSizes_rv (n l m : Reg) : (s.setSizes n l m).rv = s.rv := rfl
@[simp] theorem State.setSizes_finfo (n l m : Reg) : (s.setSizes n l m).finfo = s.finfo := rfl
@[simp] theorem State.setSizes_mem (n l m : Reg) : (s.setSizes n l m).mem = s.mem := rfl
@[simp] theorem State.setSizes_params (n l m : Reg) : (s.setSizes n l m).params = s.params := rfl
@[simp] theorem State.setSizes_script (n l m : Reg) : (s.setSizes n l m).script = s.script := rfl
@[simp] theorem State.setSizes_resp (n l m : Reg) : (s.setSizes n l m).resp = s.resp := rfl
@[simp] theorem State.setSizes_nVal (n l m : Reg) : (s.setSizes n l m).nVal = n.toNat := rfl
@[simp] theorem State.setSizes_lVal (n l m : Reg) : (s.setSizes n l m).lVal = l.toNat := rfl
@[simp] theorem State.setSizes_mVal (n l m : Reg) : (s.setSizes n l m).mVal = m.toNat := rfl
@[simp] theorem State.setSizes_winElem (n l m : Reg) (i : Nat) : (s.setSizes n l m).winElem i = s.winElem i := rfl
@[simp] theorem State.setSizes_revElem (n l m : Reg) (i : Nat) : (s.setSizes n l m).revElem i = s.revElem i := rfl
@[simp] theorem State.setSizes_twElem (n l m : Reg) (k : Nat) (im : Bool) : (s.setSizes n l m).twElem k im = s.twElem k im := rfl

/-! ### `setResults` -/

@[simp] theorem State.setResults_regN (r0 r1 : Reg) : (s.setResults r0 r1).regN = s.regN := rfl
@[simp] theorem State.setResults_regL (r0 r1 : Reg) : (s.setResults r0 r1).regL = s.regL := rfl
@[simp] theorem State.setResults_regM (r0 r1 : Reg) : (s.setResults r0 r1).regM = s.regM := rfl
@[simp] theorem State.setResults_res0 (r0 r1 : Reg) : (s.setResults r0 r1).res0 = r0 := rfl
@[simp] theorem State.setResults_res1 (r0 r1 : Reg) : (s.setResults r0 r1).res1 = r1 := rfl
@[simp] theorem State.setResults_runState (r0 r1 : Reg) : (s.setResults r0 r1).runState = s.runState := rfl
@[simp] theorem State.setResults_cause (r0 r1 : Reg) : (s.setResults r0 r1).cause = s.cause := rfl
@[simp] theorem State.setResults_wv (r0 r1 : Reg) : (s.setResults r0 r1).wv = s.wv := rfl
@[simp] theorem State.setResults_tv (r0 r1 : Reg) : (s.setResults r0 r1).tv = s.tv := rfl
@[simp] theorem State.setResults_rv (r0 r1 : Reg) : (s.setResults r0 r1).rv = s.rv := rfl
@[simp] theorem State.setResults_finfo (r0 r1 : Reg) : (s.setResults r0 r1).finfo = s.finfo := rfl
@[simp] theorem State.setResults_mem (r0 r1 : Reg) : (s.setResults r0 r1).mem = s.mem := rfl
@[simp] theorem State.setResults_params (r0 r1 : Reg) : (s.setResults r0 r1).params = s.params := rfl
@[simp] theorem State.setResults_script (r0 r1 : Reg) : (s.setResults r0 r1).script = s.script := rfl
@[simp] theorem State.setResults_resp (r0 r1 : Reg) : (s.setResults r0 r1).resp = s.resp := rfl
@[simp] theorem State.setResults_nVal (r0 r1 : Reg) : (s.setResults r0 r1).nVal = s.nVal := rfl
@[simp] theorem State.setResults_lVal (r0 r1 : Reg) : (s.setResults r0 r1).lVal = s.lVal := rfl
@[simp] theorem State.setResults_mVal (r0 r1 : Reg) : (s.setResults r0 r1).mVal = s.mVal := rfl
@[simp] theorem State.setResults_winElem (r0 r1 : Reg) (i : Nat) : (s.setResults r0 r1).winElem i = s.winElem i := rfl
@[simp] theorem State.setResults_revElem (r0 r1 : Reg) (i : Nat) : (s.setResults r0 r1).revElem i = s.revElem i := rfl
@[simp] theorem State.setResults_twElem (r0 r1 : Reg) (k : Nat) (im : Bool) : (s.setResults r0 r1).twElem k im = s.twElem k im := rfl

/-! ### `setMem` -/

@[simp] theorem State.setMem_regN (m : Memory) : (s.setMem m).regN = s.regN := rfl
@[simp] theorem State.setMem_regL (m : Memory) : (s.setMem m).regL = s.regL := rfl
@[simp] theorem State.setMem_regM (m : Memory) : (s.setMem m).regM = s.regM := rfl
@[simp] theorem State.setMem_res0 (m : Memory) : (s.setMem m).res0 = s.res0 := rfl
@[simp] theorem State.setMem_res1 (m : Memory) : (s.setMem m).res1 = s.res1 := rfl
@[simp] theorem State.setMem_runState (m : Memory) : (s.setMem m).runState = s.runState := rfl
@[simp] theorem State.setMem_cause (m : Memory) : (s.setMem m).cause = s.cause := rfl
@[simp] theorem State.setMem_wv (m : Memory) : (s.setMem m).wv = s.wv := rfl
@[simp] theorem State.setMem_tv (m : Memory) : (s.setMem m).tv = s.tv := rfl
@[simp] theorem State.setMem_rv (m : Memory) : (s.setMem m).rv = s.rv := rfl
@[simp] theorem State.setMem_finfo (m : Memory) : (s.setMem m).finfo = s.finfo := rfl
@[simp] theorem State.setMem_mem (m : Memory) : (s.setMem m).mem = m := rfl
@[simp] theorem State.setMem_params (m : Memory) : (s.setMem m).params = s.params := rfl
@[simp] theorem State.setMem_script (m : Memory) : (s.setMem m).script = s.script := rfl
@[simp] theorem State.setMem_resp (m : Memory) : (s.setMem m).resp = s.resp := rfl
@[simp] theorem State.setMem_nVal (m : Memory) : (s.setMem m).nVal = s.nVal := rfl
@[simp] theorem State.setMem_lVal (m : Memory) : (s.setMem m).lVal = s.lVal := rfl
@[simp] theorem State.setMem_mVal (m : Memory) : (s.setMem m).mVal = s.mVal := rfl

/-! ### `respond` -/

@[simp] theorem State.respond_regN (r : PortResp) : (s.respond r).regN = s.regN := rfl
@[simp] theorem State.respond_regL (r : PortResp) : (s.respond r).regL = s.regL := rfl
@[simp] theorem State.respond_regM (r : PortResp) : (s.respond r).regM = s.regM := rfl
@[simp] theorem State.respond_res0 (r : PortResp) : (s.respond r).res0 = s.res0 := rfl
@[simp] theorem State.respond_res1 (r : PortResp) : (s.respond r).res1 = s.res1 := rfl
@[simp] theorem State.respond_runState (r : PortResp) : (s.respond r).runState = s.runState := rfl
@[simp] theorem State.respond_cause (r : PortResp) : (s.respond r).cause = s.cause := rfl
@[simp] theorem State.respond_wv (r : PortResp) : (s.respond r).wv = s.wv := rfl
@[simp] theorem State.respond_tv (r : PortResp) : (s.respond r).tv = s.tv := rfl
@[simp] theorem State.respond_rv (r : PortResp) : (s.respond r).rv = s.rv := rfl
@[simp] theorem State.respond_finfo (r : PortResp) : (s.respond r).finfo = s.finfo := rfl
@[simp] theorem State.respond_mem (r : PortResp) : (s.respond r).mem = s.mem := rfl
@[simp] theorem State.respond_params (r : PortResp) : (s.respond r).params = s.params := rfl
@[simp] theorem State.respond_script (r : PortResp) : (s.respond r).script = s.script := rfl
@[simp] theorem State.respond_resp (r : PortResp) : (s.respond r).resp = r := rfl
@[simp] theorem State.respond_nVal (r : PortResp) : (s.respond r).nVal = s.nVal := rfl
@[simp] theorem State.respond_lVal (r : PortResp) : (s.respond r).lVal = s.lVal := rfl
@[simp] theorem State.respond_mVal (r : PortResp) : (s.respond r).mVal = s.mVal := rfl
@[simp] theorem State.respond_winElem (r : PortResp) (i : Nat) : (s.respond r).winElem i = s.winElem i := rfl
@[simp] theorem State.respond_revElem (r : PortResp) (i : Nat) : (s.respond r).revElem i = s.revElem i := rfl
@[simp] theorem State.respond_twElem (r : PortResp) (k : Nat) (im : Bool) : (s.respond r).twElem k im = s.twElem k im := rfl

/-! ### `setScript` -/

@[simp] theorem State.setScript_regN (ops : List HostOp) : (s.setScript ops).regN = s.regN := rfl
@[simp] theorem State.setScript_regL (ops : List HostOp) : (s.setScript ops).regL = s.regL := rfl
@[simp] theorem State.setScript_regM (ops : List HostOp) : (s.setScript ops).regM = s.regM := rfl
@[simp] theorem State.setScript_res0 (ops : List HostOp) : (s.setScript ops).res0 = s.res0 := rfl
@[simp] theorem State.setScript_res1 (ops : List HostOp) : (s.setScript ops).res1 = s.res1 := rfl
@[simp] theorem State.setScript_runState (ops : List HostOp) : (s.setScript ops).runState = s.runState := rfl
@[simp] theorem State.setScript_cause (ops : List HostOp) : (s.setScript ops).cause = s.cause := rfl
@[simp] theorem State.setScript_wv (ops : List HostOp) : (s.setScript ops).wv = s.wv := rfl
@[simp] theorem State.setScript_tv (ops : List HostOp) : (s.setScript ops).tv = s.tv := rfl
@[simp] theorem State.setScript_rv (ops : List HostOp) : (s.setScript ops).rv = s.rv := rfl
@[simp] theorem State.setScript_finfo (ops : List HostOp) : (s.setScript ops).finfo = s.finfo := rfl
@[simp] theorem State.setScript_mem (ops : List HostOp) : (s.setScript ops).mem = s.mem := rfl
@[simp] theorem State.setScript_params (ops : List HostOp) : (s.setScript ops).params = s.params := rfl
@[simp] theorem State.setScript_script (ops : List HostOp) : (s.setScript ops).script = ops := rfl
@[simp] theorem State.setScript_resp (ops : List HostOp) : (s.setScript ops).resp = s.resp := rfl
@[simp] theorem State.setScript_nVal (ops : List HostOp) : (s.setScript ops).nVal = s.nVal := rfl
@[simp] theorem State.setScript_lVal (ops : List HostOp) : (s.setScript ops).lVal = s.lVal := rfl
@[simp] theorem State.setScript_mVal (ops : List HostOp) : (s.setScript ops).mVal = s.mVal := rfl
@[simp] theorem State.setScript_winElem (ops : List HostOp) (i : Nat) : (s.setScript ops).winElem i = s.winElem i := rfl
@[simp] theorem State.setScript_revElem (ops : List HostOp) (i : Nat) : (s.setScript ops).revElem i = s.revElem i := rfl
@[simp] theorem State.setScript_twElem (ops : List HostOp) (k : Nat) (im : Bool) : (s.setScript ops).twElem k im = s.twElem k im := rfl

/-! ### `raise` -/

@[simp] theorem State.raise_regN (c : Cause) (v : Reg) : (s.raise c v).regN = s.regN := rfl
@[simp] theorem State.raise_regL (c : Cause) (v : Reg) : (s.raise c v).regL = s.regL := rfl
@[simp] theorem State.raise_regM (c : Cause) (v : Reg) : (s.raise c v).regM = s.regM := rfl
@[simp] theorem State.raise_res0 (c : Cause) (v : Reg) : (s.raise c v).res0 = s.res0 := rfl
@[simp] theorem State.raise_res1 (c : Cause) (v : Reg) : (s.raise c v).res1 = s.res1 := rfl
@[simp] theorem State.raise_runState (c : Cause) (v : Reg) : (s.raise c v).runState = .fault := rfl
@[simp] theorem State.raise_cause (c : Cause) (v : Reg) : (s.raise c v).cause = c := rfl
@[simp] theorem State.raise_wv (c : Cause) (v : Reg) : (s.raise c v).wv = s.wv := rfl
@[simp] theorem State.raise_tv (c : Cause) (v : Reg) : (s.raise c v).tv = s.tv := rfl
@[simp] theorem State.raise_rv (c : Cause) (v : Reg) : (s.raise c v).rv = s.rv := rfl
@[simp] theorem State.raise_finfo (c : Cause) (v : Reg) : (s.raise c v).finfo = v := rfl
@[simp] theorem State.raise_mem (c : Cause) (v : Reg) : (s.raise c v).mem = s.mem := rfl
@[simp] theorem State.raise_params (c : Cause) (v : Reg) : (s.raise c v).params = s.params := rfl
@[simp] theorem State.raise_script (c : Cause) (v : Reg) : (s.raise c v).script = s.script := rfl
@[simp] theorem State.raise_resp (c : Cause) (v : Reg) : (s.raise c v).resp = s.resp := rfl
@[simp] theorem State.raise_nVal (c : Cause) (v : Reg) : (s.raise c v).nVal = s.nVal := rfl
@[simp] theorem State.raise_lVal (c : Cause) (v : Reg) : (s.raise c v).lVal = s.lVal := rfl
@[simp] theorem State.raise_mVal (c : Cause) (v : Reg) : (s.raise c v).mVal = s.mVal := rfl
@[simp] theorem State.raise_winElem (c : Cause) (v : Reg) (i : Nat) : (s.raise c v).winElem i = s.winElem i := rfl
@[simp] theorem State.raise_revElem (c : Cause) (v : Reg) (i : Nat) : (s.raise c v).revElem i = s.revElem i := rfl
@[simp] theorem State.raise_twElem (c : Cause) (v : Reg) (k : Nat) (im : Bool) : (s.raise c v).twElem k im = s.twElem k im := rfl

/-! ### `toReset` -/

@[simp] theorem State.toReset_regN : s.toReset.regN = 0#64 := rfl
@[simp] theorem State.toReset_regL : s.toReset.regL = 1#64 := rfl
@[simp] theorem State.toReset_regM : s.toReset.regM = 0#64 := rfl
@[simp] theorem State.toReset_res0 : s.toReset.res0 = 0#64 := rfl
@[simp] theorem State.toReset_res1 : s.toReset.res1 = 0#64 := rfl
@[simp] theorem State.toReset_runState : s.toReset.runState = .idle := rfl
@[simp] theorem State.toReset_cause : s.toReset.cause = .none := rfl
@[simp] theorem State.toReset_wv : s.toReset.wv = false := rfl
@[simp] theorem State.toReset_tv : s.toReset.tv = false := rfl
@[simp] theorem State.toReset_rv : s.toReset.rv = false := rfl
@[simp] theorem State.toReset_finfo : s.toReset.finfo = 0#64 := rfl
@[simp] theorem State.toReset_mem : s.toReset.mem = [] := rfl
@[simp] theorem State.toReset_params : s.toReset.params = s.params := rfl
@[simp] theorem State.toReset_script : s.toReset.script = s.script := rfl
@[simp] theorem State.toReset_resp : s.toReset.resp = s.resp := rfl
@[simp] theorem State.toReset_nVal : s.toReset.nVal = 0 := rfl
@[simp] theorem State.toReset_lVal : s.toReset.lVal = 1 := rfl
@[simp] theorem State.toReset_mVal : s.toReset.mVal = 0 := rfl

/-! ### `complete` -/

@[simp] theorem State.complete_regN : s.complete.regN = s.regN := rfl
@[simp] theorem State.complete_regL : s.complete.regL = s.regL := rfl
@[simp] theorem State.complete_regM : s.complete.regM = s.regM := rfl
@[simp] theorem State.complete_res0 : s.complete.res0 = s.res0 := rfl
@[simp] theorem State.complete_res1 : s.complete.res1 = s.res1 := rfl
@[simp] theorem State.complete_runState : s.complete.runState = .done := rfl
@[simp] theorem State.complete_cause : s.complete.cause = s.cause := rfl
@[simp] theorem State.complete_wv : s.complete.wv = s.wv := rfl
@[simp] theorem State.complete_tv : s.complete.tv = s.tv := rfl
@[simp] theorem State.complete_rv : s.complete.rv = s.rv := rfl
@[simp] theorem State.complete_finfo : s.complete.finfo = s.finfo := rfl
@[simp] theorem State.complete_mem : s.complete.mem = s.mem := rfl
@[simp] theorem State.complete_params : s.complete.params = s.params := rfl
@[simp] theorem State.complete_script : s.complete.script = s.script := rfl
@[simp] theorem State.complete_resp : s.complete.resp = s.resp := rfl
@[simp] theorem State.complete_nVal : s.complete.nVal = s.nVal := rfl
@[simp] theorem State.complete_lVal : s.complete.lVal = s.lVal := rfl
@[simp] theorem State.complete_mVal : s.complete.mVal = s.mVal := rfl
@[simp] theorem State.complete_winElem (i : Nat) : s.complete.winElem i = s.winElem i := rfl
@[simp] theorem State.complete_revElem (i : Nat) : s.complete.revElem i = s.revElem i := rfl
@[simp] theorem State.complete_twElem (k : Nat) (im : Bool) : s.complete.twElem k im = s.twElem k im := rfl

/-! ### `validateWin` -/

@[simp] theorem State.validateWin_regN : s.validateWin.regN = s.regN := rfl
@[simp] theorem State.validateWin_regL : s.validateWin.regL = s.regL := rfl
@[simp] theorem State.validateWin_regM : s.validateWin.regM = s.regM := rfl
@[simp] theorem State.validateWin_res0 : s.validateWin.res0 = s.res0 := rfl
@[simp] theorem State.validateWin_res1 : s.validateWin.res1 = s.res1 := rfl
@[simp] theorem State.validateWin_runState : s.validateWin.runState = s.runState := rfl
@[simp] theorem State.validateWin_cause : s.validateWin.cause = s.cause := rfl
@[simp] theorem State.validateWin_wv : s.validateWin.wv = true := rfl
@[simp] theorem State.validateWin_tv : s.validateWin.tv = s.tv := rfl
@[simp] theorem State.validateWin_rv : s.validateWin.rv = s.rv := rfl
@[simp] theorem State.validateWin_finfo : s.validateWin.finfo = s.finfo := rfl
@[simp] theorem State.validateWin_mem : s.validateWin.mem = s.mem := rfl
@[simp] theorem State.validateWin_params : s.validateWin.params = s.params := rfl
@[simp] theorem State.validateWin_script : s.validateWin.script = s.script := rfl
@[simp] theorem State.validateWin_resp : s.validateWin.resp = s.resp := rfl
@[simp] theorem State.validateWin_nVal : s.validateWin.nVal = s.nVal := rfl
@[simp] theorem State.validateWin_lVal : s.validateWin.lVal = s.lVal := rfl
@[simp] theorem State.validateWin_mVal : s.validateWin.mVal = s.mVal := rfl
@[simp] theorem State.validateWin_winElem (i : Nat) : s.validateWin.winElem i = s.winElem i := rfl
@[simp] theorem State.validateWin_revElem (i : Nat) : s.validateWin.revElem i = s.revElem i := rfl
@[simp] theorem State.validateWin_twElem (k : Nat) (im : Bool) : s.validateWin.twElem k im = s.twElem k im := rfl

/-! ### `validateTw` -/

@[simp] theorem State.validateTw_regN : s.validateTw.regN = s.regN := rfl
@[simp] theorem State.validateTw_regL : s.validateTw.regL = s.regL := rfl
@[simp] theorem State.validateTw_regM : s.validateTw.regM = s.regM := rfl
@[simp] theorem State.validateTw_res0 : s.validateTw.res0 = s.res0 := rfl
@[simp] theorem State.validateTw_res1 : s.validateTw.res1 = s.res1 := rfl
@[simp] theorem State.validateTw_runState : s.validateTw.runState = s.runState := rfl
@[simp] theorem State.validateTw_cause : s.validateTw.cause = s.cause := rfl
@[simp] theorem State.validateTw_wv : s.validateTw.wv = s.wv := rfl
@[simp] theorem State.validateTw_tv : s.validateTw.tv = true := rfl
@[simp] theorem State.validateTw_rv : s.validateTw.rv = s.rv := rfl
@[simp] theorem State.validateTw_finfo : s.validateTw.finfo = s.finfo := rfl
@[simp] theorem State.validateTw_mem : s.validateTw.mem = s.mem := rfl
@[simp] theorem State.validateTw_params : s.validateTw.params = s.params := rfl
@[simp] theorem State.validateTw_script : s.validateTw.script = s.script := rfl
@[simp] theorem State.validateTw_resp : s.validateTw.resp = s.resp := rfl
@[simp] theorem State.validateTw_nVal : s.validateTw.nVal = s.nVal := rfl
@[simp] theorem State.validateTw_lVal : s.validateTw.lVal = s.lVal := rfl
@[simp] theorem State.validateTw_mVal : s.validateTw.mVal = s.mVal := rfl
@[simp] theorem State.validateTw_winElem (i : Nat) : s.validateTw.winElem i = s.winElem i := rfl
@[simp] theorem State.validateTw_revElem (i : Nat) : s.validateTw.revElem i = s.revElem i := rfl
@[simp] theorem State.validateTw_twElem (k : Nat) (im : Bool) : s.validateTw.twElem k im = s.twElem k im := rfl

/-! ### `validateRev` -/

@[simp] theorem State.validateRev_regN : s.validateRev.regN = s.regN := rfl
@[simp] theorem State.validateRev_regL : s.validateRev.regL = s.regL := rfl
@[simp] theorem State.validateRev_regM : s.validateRev.regM = s.regM := rfl
@[simp] theorem State.validateRev_res0 : s.validateRev.res0 = s.res0 := rfl
@[simp] theorem State.validateRev_res1 : s.validateRev.res1 = s.res1 := rfl
@[simp] theorem State.validateRev_runState : s.validateRev.runState = s.runState := rfl
@[simp] theorem State.validateRev_cause : s.validateRev.cause = s.cause := rfl
@[simp] theorem State.validateRev_wv : s.validateRev.wv = s.wv := rfl
@[simp] theorem State.validateRev_tv : s.validateRev.tv = s.tv := rfl
@[simp] theorem State.validateRev_rv : s.validateRev.rv = true := rfl
@[simp] theorem State.validateRev_finfo : s.validateRev.finfo = s.finfo := rfl
@[simp] theorem State.validateRev_mem : s.validateRev.mem = s.mem := rfl
@[simp] theorem State.validateRev_params : s.validateRev.params = s.params := rfl
@[simp] theorem State.validateRev_script : s.validateRev.script = s.script := rfl
@[simp] theorem State.validateRev_resp : s.validateRev.resp = s.resp := rfl
@[simp] theorem State.validateRev_nVal : s.validateRev.nVal = s.nVal := rfl
@[simp] theorem State.validateRev_lVal : s.validateRev.lVal = s.lVal := rfl
@[simp] theorem State.validateRev_mVal : s.validateRev.mVal = s.mVal := rfl
@[simp] theorem State.validateRev_winElem (i : Nat) : s.validateRev.winElem i = s.winElem i := rfl
@[simp] theorem State.validateRev_revElem (i : Nat) : s.validateRev.revElem i = s.revElem i := rfl
@[simp] theorem State.validateRev_twElem (k : Nat) (im : Bool) : s.validateRev.twElem k im = s.twElem k im := rfl

/-! ### `invalidateTables` -/

@[simp] theorem State.invalidateTables_regN : s.invalidateTables.regN = s.regN := rfl
@[simp] theorem State.invalidateTables_regL : s.invalidateTables.regL = s.regL := rfl
@[simp] theorem State.invalidateTables_regM : s.invalidateTables.regM = s.regM := rfl
@[simp] theorem State.invalidateTables_res0 : s.invalidateTables.res0 = s.res0 := rfl
@[simp] theorem State.invalidateTables_res1 : s.invalidateTables.res1 = s.res1 := rfl
@[simp] theorem State.invalidateTables_runState : s.invalidateTables.runState = s.runState := rfl
@[simp] theorem State.invalidateTables_cause : s.invalidateTables.cause = s.cause := rfl
@[simp] theorem State.invalidateTables_wv : s.invalidateTables.wv = false := rfl
@[simp] theorem State.invalidateTables_tv : s.invalidateTables.tv = false := rfl
@[simp] theorem State.invalidateTables_rv : s.invalidateTables.rv = false := rfl
@[simp] theorem State.invalidateTables_finfo : s.invalidateTables.finfo = s.finfo := rfl
@[simp] theorem State.invalidateTables_mem : s.invalidateTables.mem = [] := rfl
@[simp] theorem State.invalidateTables_params : s.invalidateTables.params = s.params := rfl
@[simp] theorem State.invalidateTables_script : s.invalidateTables.script = s.script := rfl
@[simp] theorem State.invalidateTables_resp : s.invalidateTables.resp = s.resp := rfl
@[simp] theorem State.invalidateTables_nVal : s.invalidateTables.nVal = s.nVal := rfl
@[simp] theorem State.invalidateTables_lVal : s.invalidateTables.lVal = s.lVal := rfl
@[simp] theorem State.invalidateTables_mVal : s.invalidateTables.mVal = s.mVal := rfl

/-! ### `storeWin` -/

@[simp] theorem State.storeWin_regN (es : List Reg) : (s.storeWin es).regN = s.regN := rfl
@[simp] theorem State.storeWin_regL (es : List Reg) : (s.storeWin es).regL = s.regL := rfl
@[simp] theorem State.storeWin_regM (es : List Reg) : (s.storeWin es).regM = s.regM := rfl
@[simp] theorem State.storeWin_res0 (es : List Reg) : (s.storeWin es).res0 = s.res0 := rfl
@[simp] theorem State.storeWin_res1 (es : List Reg) : (s.storeWin es).res1 = s.res1 := rfl
@[simp] theorem State.storeWin_runState (es : List Reg) : (s.storeWin es).runState = s.runState := rfl
@[simp] theorem State.storeWin_cause (es : List Reg) : (s.storeWin es).cause = s.cause := rfl
@[simp] theorem State.storeWin_wv (es : List Reg) : (s.storeWin es).wv = s.wv := rfl
@[simp] theorem State.storeWin_tv (es : List Reg) : (s.storeWin es).tv = s.tv := rfl
@[simp] theorem State.storeWin_rv (es : List Reg) : (s.storeWin es).rv = s.rv := rfl
@[simp] theorem State.storeWin_finfo (es : List Reg) : (s.storeWin es).finfo = s.finfo := rfl
@[simp] theorem State.storeWin_mem (es : List Reg) : (s.storeWin es).mem = s.mem.storeElems (winAddr 0) es := rfl
@[simp] theorem State.storeWin_params (es : List Reg) : (s.storeWin es).params = s.params := rfl
@[simp] theorem State.storeWin_script (es : List Reg) : (s.storeWin es).script = s.script := rfl
@[simp] theorem State.storeWin_resp (es : List Reg) : (s.storeWin es).resp = s.resp := rfl
@[simp] theorem State.storeWin_nVal (es : List Reg) : (s.storeWin es).nVal = s.nVal := rfl
@[simp] theorem State.storeWin_lVal (es : List Reg) : (s.storeWin es).lVal = s.lVal := rfl
@[simp] theorem State.storeWin_mVal (es : List Reg) : (s.storeWin es).mVal = s.mVal := rfl

/-! ### `storeTw` -/

@[simp] theorem State.storeTw_regN (es : List Reg) : (s.storeTw es).regN = s.regN := rfl
@[simp] theorem State.storeTw_regL (es : List Reg) : (s.storeTw es).regL = s.regL := rfl
@[simp] theorem State.storeTw_regM (es : List Reg) : (s.storeTw es).regM = s.regM := rfl
@[simp] theorem State.storeTw_res0 (es : List Reg) : (s.storeTw es).res0 = s.res0 := rfl
@[simp] theorem State.storeTw_res1 (es : List Reg) : (s.storeTw es).res1 = s.res1 := rfl
@[simp] theorem State.storeTw_runState (es : List Reg) : (s.storeTw es).runState = s.runState := rfl
@[simp] theorem State.storeTw_cause (es : List Reg) : (s.storeTw es).cause = s.cause := rfl
@[simp] theorem State.storeTw_wv (es : List Reg) : (s.storeTw es).wv = s.wv := rfl
@[simp] theorem State.storeTw_tv (es : List Reg) : (s.storeTw es).tv = s.tv := rfl
@[simp] theorem State.storeTw_rv (es : List Reg) : (s.storeTw es).rv = s.rv := rfl
@[simp] theorem State.storeTw_finfo (es : List Reg) : (s.storeTw es).finfo = s.finfo := rfl
@[simp] theorem State.storeTw_mem (es : List Reg) : (s.storeTw es).mem = s.mem.storeElems (twAddr 0 false) es := rfl
@[simp] theorem State.storeTw_params (es : List Reg) : (s.storeTw es).params = s.params := rfl
@[simp] theorem State.storeTw_script (es : List Reg) : (s.storeTw es).script = s.script := rfl
@[simp] theorem State.storeTw_resp (es : List Reg) : (s.storeTw es).resp = s.resp := rfl
@[simp] theorem State.storeTw_nVal (es : List Reg) : (s.storeTw es).nVal = s.nVal := rfl
@[simp] theorem State.storeTw_lVal (es : List Reg) : (s.storeTw es).lVal = s.lVal := rfl
@[simp] theorem State.storeTw_mVal (es : List Reg) : (s.storeTw es).mVal = s.mVal := rfl

/-! ### `storeRev` -/

@[simp] theorem State.storeRev_regN (es : List Reg) : (s.storeRev es).regN = s.regN := rfl
@[simp] theorem State.storeRev_regL (es : List Reg) : (s.storeRev es).regL = s.regL := rfl
@[simp] theorem State.storeRev_regM (es : List Reg) : (s.storeRev es).regM = s.regM := rfl
@[simp] theorem State.storeRev_res0 (es : List Reg) : (s.storeRev es).res0 = s.res0 := rfl
@[simp] theorem State.storeRev_res1 (es : List Reg) : (s.storeRev es).res1 = s.res1 := rfl
@[simp] theorem State.storeRev_runState (es : List Reg) : (s.storeRev es).runState = s.runState := rfl
@[simp] theorem State.storeRev_cause (es : List Reg) : (s.storeRev es).cause = s.cause := rfl
@[simp] theorem State.storeRev_wv (es : List Reg) : (s.storeRev es).wv = s.wv := rfl
@[simp] theorem State.storeRev_tv (es : List Reg) : (s.storeRev es).tv = s.tv := rfl
@[simp] theorem State.storeRev_rv (es : List Reg) : (s.storeRev es).rv = s.rv := rfl
@[simp] theorem State.storeRev_finfo (es : List Reg) : (s.storeRev es).finfo = s.finfo := rfl
@[simp] theorem State.storeRev_mem (es : List Reg) : (s.storeRev es).mem = s.mem.storeElems (revAddr 0) es := rfl
@[simp] theorem State.storeRev_params (es : List Reg) : (s.storeRev es).params = s.params := rfl
@[simp] theorem State.storeRev_script (es : List Reg) : (s.storeRev es).script = s.script := rfl
@[simp] theorem State.storeRev_resp (es : List Reg) : (s.storeRev es).resp = s.resp := rfl
@[simp] theorem State.storeRev_nVal (es : List Reg) : (s.storeRev es).nVal = s.nVal := rfl
@[simp] theorem State.storeRev_lVal (es : List Reg) : (s.storeRev es).lVal = s.lVal := rfl
@[simp] theorem State.storeRev_mVal (es : List Reg) : (s.storeRev es).mVal = s.mVal := rfl

/-! ### `forgetTables` -/

@[simp] theorem State.forgetTables_regN : s.forgetTables.regN = s.regN := rfl
@[simp] theorem State.forgetTables_regL : s.forgetTables.regL = s.regL := rfl
@[simp] theorem State.forgetTables_regM : s.forgetTables.regM = s.regM := rfl
@[simp] theorem State.forgetTables_res0 : s.forgetTables.res0 = s.res0 := rfl
@[simp] theorem State.forgetTables_res1 : s.forgetTables.res1 = s.res1 := rfl
@[simp] theorem State.forgetTables_runState : s.forgetTables.runState = s.runState := rfl
@[simp] theorem State.forgetTables_cause : s.forgetTables.cause = s.cause := rfl
@[simp] theorem State.forgetTables_wv : s.forgetTables.wv = s.wv := rfl
@[simp] theorem State.forgetTables_tv : s.forgetTables.tv = s.tv := rfl
@[simp] theorem State.forgetTables_rv : s.forgetTables.rv = s.rv := rfl
@[simp] theorem State.forgetTables_finfo : s.forgetTables.finfo = s.finfo := rfl
@[simp] theorem State.forgetTables_mem : s.forgetTables.mem = [] := rfl
@[simp] theorem State.forgetTables_params : s.forgetTables.params = s.params := rfl
@[simp] theorem State.forgetTables_script : s.forgetTables.script = s.script := rfl
@[simp] theorem State.forgetTables_resp : s.forgetTables.resp = s.resp := rfl
@[simp] theorem State.forgetTables_nVal : s.forgetTables.nVal = s.nVal := rfl
@[simp] theorem State.forgetTables_lVal : s.forgetTables.lVal = s.lVal := rfl
@[simp] theorem State.forgetTables_mVal : s.forgetTables.mVal = s.mVal := rfl

/-! ### `deriveSizes` -/

@[simp] theorem State.deriveSizes_regN (n : Nat) : (s.deriveSizes n).regN = BitVec.ofNat 64 n := rfl
@[simp] theorem State.deriveSizes_regL (n : Nat) : (s.deriveSizes n).regL = BitVec.ofNat 64 (inputLength n) := rfl
@[simp] theorem State.deriveSizes_regM (n : Nat) : (s.deriveSizes n).regM = BitVec.ofNat 64 (outputLength n) := rfl
@[simp] theorem State.deriveSizes_res0 (n : Nat) : (s.deriveSizes n).res0 = s.res0 := rfl
@[simp] theorem State.deriveSizes_res1 (n : Nat) : (s.deriveSizes n).res1 = s.res1 := rfl
@[simp] theorem State.deriveSizes_runState (n : Nat) : (s.deriveSizes n).runState = s.runState := rfl
@[simp] theorem State.deriveSizes_cause (n : Nat) : (s.deriveSizes n).cause = s.cause := rfl
@[simp] theorem State.deriveSizes_wv (n : Nat) : (s.deriveSizes n).wv = false := rfl
@[simp] theorem State.deriveSizes_tv (n : Nat) : (s.deriveSizes n).tv = false := rfl
@[simp] theorem State.deriveSizes_rv (n : Nat) : (s.deriveSizes n).rv = false := rfl
@[simp] theorem State.deriveSizes_finfo (n : Nat) : (s.deriveSizes n).finfo = s.finfo := rfl
@[simp] theorem State.deriveSizes_mem (n : Nat) : (s.deriveSizes n).mem = [] := rfl
@[simp] theorem State.deriveSizes_params (n : Nat) : (s.deriveSizes n).params = s.params := rfl
@[simp] theorem State.deriveSizes_script (n : Nat) : (s.deriveSizes n).script = s.script := rfl
@[simp] theorem State.deriveSizes_resp (n : Nat) : (s.deriveSizes n).resp = s.resp := rfl
@[simp] theorem State.deriveSizes_nVal (n : Nat) : (s.deriveSizes n).nVal = (BitVec.ofNat 64 n).toNat := rfl
@[simp] theorem State.deriveSizes_lVal (n : Nat) : (s.deriveSizes n).lVal = (BitVec.ofNat 64 (inputLength n)).toNat := rfl
@[simp] theorem State.deriveSizes_mVal (n : Nat) : (s.deriveSizes n).mVal = (BitVec.ofNat 64 (outputLength n)).toNat := rfl

/-! ### Updates that are compositions of the ones above -/

@[simp] theorem State.setMem_setMem (m m' : Memory) : (s.setMem m).setMem m' = s.setMem m' := rfl
@[simp] theorem State.setScript_setScript (a b : List HostOp) : (s.setScript a).setScript b = s.setScript b := rfl
@[simp] theorem State.respond_respond (a b : PortResp) : (s.respond a).respond b = s.respond b := rfl

/-- `GENALL` stores the three tables one after another (spec/45_generate_all.md R187). -/
theorem State.storeAll_eq (n : Nat) :
    s.storeAll n = ((s.storeWin (winTable s.params (inputLength n))).storeTw
      (twTable s.params (inputLength n) (outputLength n))).storeRev (revTable (inputLength n) n) := rfl

/-! ### The data registers by number (spec/10_state.md R21) -/

@[simp] theorem State.x_zero : s.x 0 = s.regN := rfl
@[simp] theorem State.x_one : s.x 1 = s.regL := rfl
@[simp] theorem State.x_two : s.x 2 = s.regM := rfl
@[simp] theorem State.x_three : s.x 3 = s.res0 := rfl
@[simp] theorem State.x_four : s.x 4 = s.res1 := rfl

/-- A state is its fields. -/
theorem State.eq_of_fields {s t : State} (hN : s.regN = t.regN) (hL : s.regL = t.regL) (hM : s.regM = t.regM)
    (h0 : s.res0 = t.res0) (h1 : s.res1 = t.res1) (hr : s.runState = t.runState) (hc : s.cause = t.cause)
    (hw : s.wv = t.wv) (ht : s.tv = t.tv) (hv : s.rv = t.rv) (hf : s.finfo = t.finfo) (hm : s.mem = t.mem)
    (hp : s.params = t.params) (hs : s.script = t.script) (hq : s.resp = t.resp) : s = t := by
  cases s; cases t; simp_all

end Sys2Proof.Machine
end

