-- ==== Sys2Proof/Laws/Memory.lean ====
section
/-! SUPPORT. The laws of the memory operations: what a read gives after a write, byte by byte and element by element,
and that every operation keeps the canonical form. -/

namespace Sys2Proof.Machine

/-! ### Bytes -/

@[simp] theorem Memory.read_nil (a : Nat) : Memory.read [] a = none := rfl

theorem Memory.read_cons (c : Host.Cell) (m : Memory) (a : Nat) :
    Memory.read (c :: m) a = if c.1 = a then some c.2 else Memory.read m a := rfl

theorem Memory.read_append (m₁ m₂ : Memory) (a : Nat) :
    Memory.read (m₁ ++ m₂) a = (Memory.read m₁ a).or (Memory.read m₂ a) := by
  induction m₁ with
  | nil => simp
  | cons c m ih =>
    simp only [List.cons_append, Memory.read_cons, ih]
    split <;> simp

/-- Dropping cells by their address drops exactly their readings. -/
theorem Memory.read_filter (p : Nat → Bool) (m : Memory) (a : Nat) :
    Memory.read (m.filter (fun c => p c.1)) a = if p a then Memory.read m a else none := by
  induction m with
  | nil => simp
  | cons c m ih =>
    by_cases hc : p c.1 = true
    · rw [List.filter_cons, if_pos hc, Memory.read_cons, Memory.read_cons, ih]
      by_cases ha : c.1 = a
      · subst ha; simp [hc]
      · simp [ha]
    · rw [List.filter_cons, if_neg hc, Memory.read_cons, ih]
      by_cases ha : c.1 = a
      · subst ha; simp [hc]
      · simp [ha]

theorem Memory.read_cells (base : Nat) (bs : List Byte) (a : Nat) :
    Memory.read (Memory.cells base bs) a = if base ≤ a then bs[a - base]? else none := by
  induction bs generalizing base with
  | nil => simp [Memory.cells]
  | cons b bs ih =>
    rw [Memory.cells, Memory.read_cons, ih]
    rcases Nat.lt_trichotomy base a with h | h | h
    · have : a - base = (a - (base + 1)) + 1 := by omega
      simp [h.ne, show base + 1 ≤ a from h, h.le, this]
    · simp [h]
    · simp [h.ne', Nat.not_le.mpr h, Nat.not_le.mpr (show a < base + 1 by omega)]

/-- What a byte reads as after consecutive bytes were written: the byte written there, else as before. -/
theorem Memory.read_store (m : Memory) (base : Nat) (bs : List Byte) (a : Nat) :
    (m.store base bs).read a = if base ≤ a ∧ a < base + bs.length then bs[a - base]? else m.read a := by
  rw [Memory.store, Memory.read_append, Memory.read_append, Memory.read_cells,
    Memory.read_filter (fun x => decide (x < base)), Memory.read_filter (fun x => decide (base + bs.length ≤ x))]
  by_cases h1 : a < base
  · simp [h1, Nat.not_le.mpr h1, show ¬ base + bs.length ≤ a by omega]
  · by_cases h2 : a < base + bs.length
    · have hb : a - base < bs.length := by omega
      simp [h1, Nat.not_lt.mp h1, h2, Nat.not_le.mpr h2, hb]
    · have hb : bs[a - base]? = none := List.getElem?_eq_none (by omega)
      simp [h1, Nat.not_lt.mp h1, h2, Nat.not_lt.mp h2, hb]

theorem Memory.mem_cells {base : Nat} {bs : List Byte} {c : Host.Cell} (h : c ∈ Memory.cells base bs) :
    base ≤ c.1 ∧ c.1 < base + bs.length := by
  induction bs generalizing base with
  | nil => simp [Memory.cells] at h
  | cons b bs ih =>
    simp only [Memory.cells, List.mem_cons] at h
    rcases h with rfl | h
    · simp
    · have := ih h
      simp only [List.length_cons]
      omega

theorem Memory.wf_cells (base : Nat) (bs : List Byte) : Memory.wf (Memory.cells base bs) := by
  induction bs generalizing base with
  | nil => exact List.Pairwise.nil
  | cons b bs ih =>
    refine List.Pairwise.cons (fun c hc => ?_) (ih (base + 1))
    have := Memory.mem_cells hc
    simp only; omega

theorem Memory.wf_nil : Memory.wf [] := List.Pairwise.nil

/-- Every write keeps the canonical form. -/
theorem Memory.wf_store {m : Memory} (h : m.wf) (base : Nat) (bs : List Byte) : (m.store base bs).wf := by
  unfold Memory.wf Memory.store
  rw [List.pairwise_append, List.pairwise_append]
  refine ⟨h.filter _, ⟨Memory.wf_cells base bs, h.filter _, ?_⟩, ?_⟩
  · intro c hc d hd
    have := Memory.mem_cells hc
    simp only [List.mem_filter, decide_eq_true_eq] at hd
    omega
  · intro c hc d hd
    simp only [List.mem_filter, decide_eq_true_eq] at hc
    rcases List.mem_append.mp hd with hd | hd
    · have := Memory.mem_cells hd
      omega
    · simp only [List.mem_filter, decide_eq_true_eq] at hd
      omega

/-- Canonical memories with the same readings are the same memory. -/
theorem Memory.ext_of_wf {m₁ m₂ : Memory} (h₁ : m₁.wf) (h₂ : m₂.wf) (h : ∀ a, m₁.read a = m₂.read a) : m₁ = m₂ := by
  have above : ∀ {m : Memory} {b a : Nat}, (∀ c ∈ m, b < c.1) → a ≤ b → m.read a = none := by
    intro m b a hm hab
    induction m with
    | nil => rfl
    | cons c m ih =>
      have hc := hm c (by simp)
      rw [Memory.read_cons, if_neg (by omega)]
      exact ih (fun d hd => hm d (by simp [hd]))
  induction m₁ generalizing m₂ with
  | nil =>
    cases m₂ with
    | nil => rfl
    | cons d m => have := h d.1; simp [Memory.read_cons] at this
  | cons c m₁ ih =>
    cases m₂ with
    | nil => have := h c.1; simp [Memory.read_cons] at this
    | cons d m₂ =>
      obtain ⟨hc, hm₁⟩ := List.pairwise_cons.mp h₁
      obtain ⟨hd, hm₂⟩ := List.pairwise_cons.mp h₂
      have hcd : c.1 = d.1 := by
        rcases Nat.lt_trichotomy c.1 d.1 with hlt | heq | hlt
        · have := h c.1
          rw [Memory.read_cons, if_pos rfl, Memory.read_cons, if_neg (by omega), above hd hlt.le] at this
          cases this
        · exact heq
        · have := h d.1
          rw [Memory.read_cons, if_neg (by omega), above hc hlt.le, Memory.read_cons, if_pos rfl] at this
          cases this
      have hv : c.2 = d.2 := by
        have := h c.1
        rw [Memory.read_cons, if_pos rfl, Memory.read_cons, if_pos hcd.symm] at this
        exact Option.some.inj this
      obtain rfl : c = d := Prod.ext hcd hv
      congr 1
      refine ih hm₁ hm₂ (fun a => ?_)
      by_cases ha : c.1 = a
      · rw [above hc ha.ge, above hd ha.ge]
      · have := h a
        simpa [Memory.read_cons, ha] using this

/-! ### Elements -/

@[simp] theorem bytesOf_length (v : Reg) : (bytesOf v).length = 8 := by simp [bytesOf]

theorem bytesOf_getElem? (v : Reg) {j : Nat} (h : j < 8) : (bytesOf v)[j]? = some (v.extractLsb' (8 * j) 8) := by
  simp [bytesOf, h]

/-- The byte lanes of a value give it back (spec/20_memory.md R64). -/
@[simp] theorem ofBytes_bytesOf (v : Reg) : ofBytes (bytesOf v) = v := by
  apply BitVec.eq_of_getLsbD_eq
  intro i hi
  simp only [bytesOf, List.range, List.range.loop, List.map, ofBytes]
  simp only [BitVec.getLsbD_or, BitVec.getLsbD_setWidth, BitVec.getLsbD_extractLsb', BitVec.getLsbD_shiftLeft, hi]
  interval_cases i <;> simp

theorem Memory.readBytes_congr {m m' : Memory} {a k : Nat} (h : ∀ x, a ≤ x → x < a + k → m.read x = m'.read x) :
    m.readBytes a k = m'.readBytes a k := by
  induction k generalizing a with
  | zero => rfl
  | succ k ih =>
    rw [Memory.readBytes, Memory.readBytes, h a (by omega) (by omega), ih (fun x h1 h2 => h x (by omega) (by omega))]

theorem Memory.readBytes_eq {m : Memory} {a : Nat} {bs : List Byte} (h : ∀ j < bs.length, m.read (a + j) = bs[j]?) :
    m.readBytes a bs.length = some bs := by
  induction bs generalizing a with
  | nil => rfl
  | cons b bs ih =>
    have h0 := h 0 (by simp)
    have hs : m.readBytes (a + 1) bs.length = some bs := by
      refine ih (fun j hj => ?_)
      have := h (j + 1) (by simpa using hj)
      rw [show a + 1 + j = a + (j + 1) by omega, this]
      simp
    simp only [List.length_cons, Memory.readBytes, hs]
    simp only [Nat.add_zero, List.getElem?_cons_zero] at h0
    rw [h0]

/-- An element depends on its eight bytes only. -/
theorem Memory.read64_congr {m m' : Memory} {a : Nat} (h : ∀ x, a ≤ x → x < a + 8 → m.read x = m'.read x) :
    m.read64 a = m'.read64 a := by
  rw [Memory.read64, Memory.read64, Memory.readBytes_congr h]

@[simp] theorem flatMap_bytesOf_length (es : List Reg) : (es.flatMap bytesOf).length = 8 * es.length := by
  induction es with
  | nil => rfl
  | cons e es ih => simp [ih]; omega

theorem flatMap_bytesOf_getElem? (es : List Reg) {i j : Nat} (hj : j < 8) :
    (es.flatMap bytesOf)[8 * i + j]? = es[i]?.map (fun e => e.extractLsb' (8 * j) 8) := by
  induction es generalizing i with
  | nil => simp
  | cons e es ih =>
    cases i with
    | zero => rw [List.flatMap_cons, List.getElem?_append_left (by simp; omega)]; simp [bytesOf_getElem? e hj]
    | succ i =>
      rw [List.flatMap_cons, List.getElem?_append_right (by simp; omega)]
      simpa [show 8 * (i + 1) + j - 8 = 8 * i + j by omega] using ih

/-- What a byte reads as after elements were written: outside them as before. -/
theorem Memory.read_storeElems_out {m : Memory} {base a : Nat} {es : List Reg}
    (h : a < base ∨ base + 8 * es.length ≤ a) : (m.storeElems base es).read a = m.read a := by
  rw [Memory.storeElems, Memory.read_store, if_neg (by simp; omega)]

/-- Inside the elements written every byte has a value. -/
theorem Memory.read_storeElems_isSome {m : Memory} {base a : Nat} {es : List Reg} (h1 : base ≤ a)
    (h2 : a < base + 8 * es.length) : ((m.storeElems base es).read a).isSome = true := by
  rw [Memory.storeElems, Memory.read_store, if_pos (by simp; omega)]
  simp; omega

/-- An element reads as it was written (spec/20_memory.md R63, R64). -/
theorem Memory.read64_storeElems {m : Memory} {base i : Nat} {es : List Reg} {v : Reg} (h : es[i]? = some v) :
    (m.storeElems base es).read64 (base + 8 * i) = some v := by
  have hi : i < es.length := by
    by_contra hn
    rw [List.getElem?_eq_none (by omega)] at h
    cases h
  have : (m.storeElems base es).readBytes (base + 8 * i) (bytesOf v).length = some (bytesOf v) := by
    refine Memory.readBytes_eq (fun j hj => ?_)
    rw [bytesOf_length] at hj
    rw [Memory.storeElems, Memory.read_store, if_pos (by simp; omega),
      show base + 8 * i + j - base = 8 * i + j by omega, flatMap_bytesOf_getElem? es hj, h, bytesOf_getElem? v hj]
    rfl
  rw [bytesOf_length] at this
  rw [Memory.read64, this]
  simp

/-- An element outside the elements written reads as before. -/
theorem Memory.read64_storeElems_out {m : Memory} {base a : Nat} {es : List Reg}
    (h : a + 8 ≤ base ∨ base + 8 * es.length ≤ a) : (m.storeElems base es).read64 a = m.read64 a :=
  Memory.read64_congr (fun _ _ _ => Memory.read_storeElems_out (by omega))

theorem Memory.wf_storeElems {m : Memory} (h : m.wf) (base : Nat) (es : List Reg) : (m.storeElems base es).wf :=
  Memory.wf_store h base _

/-! ### The tables -/

theorem winAddr_eq (i : Nat) : winAddr i = winAddr 0 + 8 * i := by simp [winAddr]

theorem revAddr_eq (i : Nat) : revAddr i = revAddr 0 + 8 * i := by simp [revAddr]

@[simp] theorem winTable_length (p : Config.Params) (L : Nat) : (winTable p L).length = L := by simp [winTable]

theorem winTable_getElem? (p : Config.Params) {L i : Nat} (h : i < L) :
    (winTable p L)[i]? = some (tc64 (numWin p L i)) := by simp [winTable, h]

@[simp] theorem revTable_length (L N : Nat) : (revTable L N).length = L := by simp [revTable]

theorem revTable_getElem? {L i : Nat} (N : Nat) (h : i < L) :
    (revTable L N)[i]? = some (BitVec.ofNat 64 (reverseBits i N)) := by simp [revTable, h]

theorem flatMap_pair_getElem? {α : Type} (f g : Nat → α) (l : List Nat) (k : Nat) :
    (l.flatMap (fun x => [f x, g x]))[2 * k]? = l[k]?.map f ∧
      (l.flatMap (fun x => [f x, g x]))[2 * k + 1]? = l[k]?.map g := by
  induction l generalizing k with
  | nil => simp
  | cons x l ih =>
    cases k with
    | zero => simp
    | succ k =>
      have := ih k
      simpa [show 2 * (k + 1) = 2 * k + 1 + 1 by omega] using this

@[simp] theorem twTable_length (p : Config.Params) (L M : Nat) : (twTable p L M).length = 2 * M := by
  simp [twTable, Nat.mul_comm]

theorem twTable_getElem? (p : Config.Params) (L : Nat) {M k : Nat} (h : k < M) :
    (twTable p L M)[2 * k]? = some (tc64 (numTwre p L k)) ∧ (twTable p L M)[2 * k + 1]? = some (tc64 (numTwim p L k)) := by
  obtain ⟨h1, h2⟩ := flatMap_pair_getElem? (fun k => tc64 (numTwre p L k)) (fun k => tc64 (numTwim p L k)) (List.range M) k
  exact ⟨by simpa [twTable, h] using h1, by simpa [twTable, h] using h2⟩

/-! ### What the three table stores do -/

variable (s : State)

/-- `WIN[i]` reads as it was stored. -/
theorem State.storeWin_winElem {es : List Reg} {i : Nat} {v : Reg} (h : es[i]? = some v) :
    (s.storeWin es).winElem i = some v := by
  rw [State.winElem, State.storeWin_mem, winAddr_eq i]
  exact Memory.read64_storeElems h

/-- The real part of `TW[k]` reads as it was stored. -/
theorem State.storeTw_twElem_re {es : List Reg} {k : Nat} {v : Reg} (h : es[2 * k]? = some v) :
    (s.storeTw es).twElem k false = some v := by
  rw [State.twElem, State.storeTw_mem, show twAddr k false = twAddr 0 false + 8 * (2 * k) by simp [twAddr]; omega]
  exact Memory.read64_storeElems h

/-- The imaginary part of `TW[k]` reads as it was stored. -/
theorem State.storeTw_twElem_im {es : List Reg} {k : Nat} {v : Reg} (h : es[2 * k + 1]? = some v) :
    (s.storeTw es).twElem k true = some v := by
  rw [State.twElem, State.storeTw_mem, show twAddr k true = twAddr 0 false + 8 * (2 * k + 1) by simp [twAddr]; omega]
  exact Memory.read64_storeElems h

/-- `REV[i]` reads as it was stored. -/
theorem State.storeRev_revElem {es : List Reg} {i : Nat} {v : Reg} (h : es[i]? = some v) :
    (s.storeRev es).revElem i = some v := by
  rw [State.revElem, State.storeRev_mem, revAddr_eq i]
  exact Memory.read64_storeElems h

/-- A store that fits below the twiddle aperture leaves the twiddle table alone. -/
theorem State.storeWin_twElem {es : List Reg} (h : es.length ≤ 2 ^ 24) (k : Nat) (im : Bool) :
    (s.storeWin es).twElem k im = s.twElem k im := by
  rw [State.twElem, State.storeWin_mem, Memory.read64_storeElems_out (by simp only [winAddr, twAddr]; omega), State.twElem]

/-- A store that fits below the bit-reversal aperture leaves the bit-reversal table alone. -/
theorem State.storeWin_revElem {es : List Reg} (h : es.length ≤ 2 ^ 24) (i : Nat) :
    (s.storeWin es).revElem i = s.revElem i := by
  rw [State.revElem, State.storeWin_mem, Memory.read64_storeElems_out (by simp only [winAddr, revAddr]; omega), State.revElem]

theorem State.storeTw_winElem {es : List Reg} {i : Nat} (h : i < 2 ^ 24) : (s.storeTw es).winElem i = s.winElem i := by
  rw [State.winElem, State.storeTw_mem, Memory.read64_storeElems_out (by simp only [winAddr, twAddr]; omega), State.winElem]

theorem State.storeTw_revElem {es : List Reg} (h : es.length ≤ 2 ^ 24) (i : Nat) :
    (s.storeTw es).revElem i = s.revElem i := by
  rw [State.revElem, State.storeTw_mem,
    Memory.read64_storeElems_out (by simp only [twAddr, revAddr, Bool.false_eq_true, ↓reduceIte]; omega), State.revElem]

theorem State.storeRev_winElem {es : List Reg} {i : Nat} (h : i < 2 ^ 24) : (s.storeRev es).winElem i = s.winElem i := by
  rw [State.winElem, State.storeRev_mem, Memory.read64_storeElems_out (by simp only [winAddr, revAddr]; omega), State.winElem]

theorem State.storeRev_twElem {es : List Reg} {k : Nat} (h : k < 2 ^ 23) (im : Bool) :
    (s.storeRev es).twElem k im = s.twElem k im := by
  rw [State.twElem, State.storeRev_mem,
    Memory.read64_storeElems_out (by simp only [twAddr, revAddr]; split <;> omega), State.twElem]

end Sys2Proof.Machine
end

