-- ==== Sys2Proof/Laws/Operands.lean ====
section
/-! SUPPORT. What the parameter check, the operand tests and the derived lengths say, in plain arithmetic. -/

namespace Sys2Proof.Machine

theorem params_wf_iff {p : Config.Params} : p.wf = true ↔ 1 ≤ p.nmax ∧ p.nmax ≤ 24 := by
  unfold Config.Params.wf
  exact decide_eq_true_iff

theorem exponentFits_iff {n : Int} : exponentFits n = true ↔ -8388608 ≤ n ∧ n ≤ 8388607 := by
  unfold exponentFits
  exact decide_eq_true_iff

theorem indexFits_iff {idx : Nat} : indexFits idx = true ↔ idx ≤ 16777215 := by
  unfold indexFits
  exact decide_eq_true_iff

theorem deriveRejects_iff {p : Config.Params} {n : Int} :
    deriveRejects p n = true ↔ n < 0 ∨ (p.nmax : Int) < n := by
  unfold deriveRejects
  exact decide_eq_true_iff

theorem genallRejects_iff {p : Config.Params} {n : Int} :
    genallRejects p n = true ↔ n < 1 ∨ (p.nmax : Int) < n := by
  unfold genallRejects
  exact decide_eq_true_iff

theorem windowUndefined_iff {s : State} : s.windowUndefined = true ↔ s.lVal ≤ 1 := by
  unfold State.windowUndefined
  exact decide_eq_true_iff

theorem shapeOk_iff {addr : PortAddr} {width : Nat} :
    shapeOk addr width = true ↔ width = 8 ∧ addr.toNat % 8 = 0 := by
  unfold shapeOk
  exact decide_eq_true_iff

/-- `1 << n = 2^n` (spec/00_scope.md R10). -/
theorem inputLength_eq (n : Nat) : inputLength n = 2 ^ n := by
  rw [inputLength, Nat.one_shiftLeft]

/-- `(1 << n) >> 1` is half of `2^n`, rounded down (spec/41_size_derivation.md R143). -/
theorem outputLength_eq (n : Nat) : outputLength n = 2 ^ n / 2 := by
  rw [outputLength, inputLength_eq, Nat.shiftRight_one]

end Sys2Proof.Machine
end

