-- ==== Sys2Proof/Laws/Numerics.lean ====
section
/-! SUPPORT. The laws of the numerics: what the quantiser gives, its monotonicity, that the fixed-point cosine depends on
the place within a turn only, and that quantising a well enough enclosed quantity gives the nearest integer. -/

namespace Sys2Proof.Machine

/-! ### `NUM` of the reference instance -/

@[simp] theorem numDelta_nil (n : Nat) (f : Config.NumFn) (L i : Nat) : numDelta ⟨n, []⟩ f L i = 0 := rfl

theorem numDelta_of_nil {p : Config.Params} (h : p.numDev = []) (f : Config.NumFn) (L i : Nat) : numDelta p f L i = 0 := by
  rw [numDelta, h]; rfl

/-! ### The quantiser (spec/40_numerics.md R122) -/

/-- The quantiser in terms of the quotient and the remainder. -/
theorem q10_eq {num : Int} {den : Nat} {f r : Int} (h : num * SCALE = f * den + r) (h0 : 0 ≤ r) (h1 : r < den) :
    q10 num den = if 2 * r < den then f else if (den : Int) < 2 * r then f + 1 else if f % 2 = 0 then f else f + 1 := by
  have hd : (0 : Int) < den := by omega
  have hf : num * SCALE / (den : Int) = f := by
    rw [h, Int.add_comm, Int.add_mul_ediv_right _ _ (by omega), Int.ediv_eq_zero_of_lt h0 h1, Int.zero_add]
  have hr : num * SCALE - f * den = r := by omega
  simp only [q10, hf, hr]

/-- The result lies within half a unit (R122). -/
theorem q10_near (num : Int) {den : Nat} (hd : 0 < den) :
    2 * (q10 num den * den - num * SCALE) ≤ den ∧ -(den : Int) ≤ 2 * (q10 num den * den - num * SCALE) := by
  have hd' : (0 : Int) < den := by omega
  have hx := (Int.mul_ediv_add_emod (num * SCALE) (den : Int)).symm
  rw [Int.mul_comm (den : Int)] at hx
  have h0 := Int.emod_nonneg (num * SCALE) hd'.ne'
  have h1 := Int.emod_lt_of_pos (num * SCALE) hd'
  generalize num * SCALE / (den : Int) = f at hx
  generalize num * SCALE % (den : Int) = r at hx h0 h1
  rw [q10_eq hx h0 h1]
  have e : (f + 1) * (den : Int) = f * den + den := by ring
  split
  · omega
  · split
    · rw [e]; omega
    · split
      · omega
      · rw [e]; omega

/-- `Q10(-v) = -Q10(v)` (spec/40_numerics.md R125). -/
theorem q10_neg (num : Int) {den : Nat} (hd : 0 < den) : q10 (-num) den = -q10 num den := by
  have hd' : (0 : Int) < den := by omega
  have hx := (Int.mul_ediv_add_emod (num * SCALE) (den : Int)).symm
  rw [Int.mul_comm (den : Int)] at hx
  have h0 := Int.emod_nonneg (num * SCALE) hd'.ne'
  have h1 := Int.emod_lt_of_pos (num * SCALE) hd'
  generalize num * SCALE / (den : Int) = f at hx
  generalize num * SCALE % (den : Int) = r at hx h0 h1
  rw [q10_eq hx h0 h1]
  have hn : -num * SCALE = -(num * SCALE) := by ring
  by_cases hr : r = 0
  · rw [q10_eq (f := -f) (r := 0) (by rw [hn, hx, hr]; ring) (by omega) (by omega)]
    simp only [hr]
    split <;> omega
  · rw [q10_eq (f := -f - 1) (r := den - r) (by rw [hn, hx]; ring) (by omega) (by omega)]
    split <;> split <;> (try split) <;> (try split) <;> omega
/-- The quantiser is monotone. -/
theorem q10_mono {a b : Int} {den : Nat} (hd : 0 < den) (h : a ≤ b) : q10 a den ≤ q10 b den := by
  rcases h.eq_or_lt with rfl | h
  · exact le_rfl
  · obtain ⟨h1, -⟩ := q10_near a hd
    obtain ⟨-, h2⟩ := q10_near b hd
    have hS : a * SCALE < b * SCALE := by
      have : (0 : Int) < SCALE := by decide
      nlinarith
    by_contra hlt
    have : (q10 b den + 1) * (den : Int) ≤ q10 a den * den := Int.mul_le_mul_of_nonneg_right (by omega) (by omega)
    nlinarith

/-! ### Quantising a quantity known to within an error -/

/-- What `q10Fix` gives of a quantity `v` that `num` approximates at every precision and whose quantised value is never a
tie by less than the distance `exactBits` allows for: the integer strictly nearest to `v * SCALE`. -/
theorem q10Fix_nearest {num : Nat → Int} {c d : Nat} {v : ℝ} (hc : 1 ≤ c)
    (hnum : ∀ p, 64 ≤ p → |(num p : ℝ) - 2 ^ p * (c * v)| ≤ turnError * c)
    (htie : ∀ m : Int, 1 ≤ |2 * SCALE * v - (2 * m + 1)| * 2 ^ (d * (d + 38))) :
    |v * SCALE - q10Fix num c d| < 1 / 2 := by
  have hc0 : (0 : ℝ) < c := by exact_mod_cast hc
  have hS : (0 : ℝ) < SCALE := by norm_num [SCALE]
  have near : ∀ (a : Int) (p : Nat), |(a : ℝ) * SCALE - q10 a (c * 2 ^ p) * (c * 2 ^ p)| ≤ c * 2 ^ p / 2 := by
    intro a p
    obtain ⟨h1, h2⟩ := q10_near a (den := c * 2 ^ p) (by positivity)
    have h1' : 2 * ((q10 a (c * 2 ^ p) : ℝ) * (c * 2 ^ p) - a * SCALE) ≤ c * 2 ^ p := by exact_mod_cast h1
    have h2' : -(c * 2 ^ p : ℝ) ≤ 2 * ((q10 a (c * 2 ^ p) : ℝ) * (c * 2 ^ p) - a * SCALE) := by exact_mod_cast h2
    rw [abs_le]; constructor <;> linarith
  have strict : ∀ q : Int, |v * SCALE - q| ≤ 1 / 2 → |v * SCALE - q| < 1 / 2 := by
    intro q hq
    refine lt_of_le_of_ne hq fun he => ?_
    rcases abs_choice (v * SCALE - q) with h | h
    · have := htie q
      rw [show 2 * SCALE * v - (2 * q + 1) = 0 by rw [h] at he; linarith, abs_zero, zero_mul] at this
      linarith
    · have := htie (q - 1)
      rw [show 2 * SCALE * v - (2 * (q - 1 : Int) + 1) = 0 by rw [h] at he; push_cast; linarith, abs_zero, zero_mul] at this
      linarith
  rw [q10Fix]
  split
  next hset =>
    rw [settles, beq_iff_eq] at hset
    have hden : (0 : ℝ) < 2 ^ 128 * c := by positivity
    have h0 := hnum 128 (by norm_num)
    have h1 := near (num 128 - (turnError * c : Nat)) 128
    have h2 := near (num 128 + (turnError * c : Nat)) 128
    have hm1 := q10_mono (a := num 128 - (turnError * c : Nat)) (b := num 128) (den := c * 2 ^ 128) (by positivity) (by omega)
    have hm2 := q10_mono (a := num 128) (b := num 128 + (turnError * c : Nat)) (den := c * 2 ^ 128) (by positivity) (by omega)
    rw [Nat.cast_mul] at *
    rw [show q10 (num 128 - turnError * c) (c * 2 ^ 128) = q10 (num 128) (c * 2 ^ 128) by omega] at h1
    rw [show q10 (num 128 + turnError * c) (c * 2 ^ 128) = q10 (num 128) (c * 2 ^ 128) by omega] at h2
    generalize q10 (num 128) (c * 2 ^ 128) = q at *
    apply strict
    rw [← mul_le_mul_iff_right₀ hden, ← abs_of_pos hden, ← abs_mul, abs_of_pos hden]
    push_cast at h1 h2
    rw [abs_le] at *
    constructor <;> nlinarith
  next =>
    have hP : (2 : ℝ) ^ exactBits d = 2 ^ (d * (d + 38)) * 2 ^ (2 * d + 64) := by
      rw [← pow_add, exactBits]; congr 1; ring
    have h0 := hnum (exactBits d) (by rw [exactBits]; omega)
    have h1 := near (num (exactBits d)) (exactBits d)
    generalize q10 (num (exactBits d)) (c * 2 ^ exactBits d) = q at *
    have hT : (0 : ℝ) < 2 ^ (d * (d + 38)) := by positivity
    have hU : (2 : ℝ) ^ 64 ≤ 2 ^ (2 * d + 64) := pow_le_pow_right₀ (by norm_num) (by omega)
    have h2 : |v * SCALE - q| ≤ 1 / 2 + 1 / (4 * 2 ^ (d * (d + 38))) := by
      have hden : (0 : ℝ) < 2 ^ exactBits d * c := by positivity
      rw [← mul_le_mul_iff_right₀ hden, ← abs_of_pos hden, ← abs_mul, abs_of_pos hden]
      have h3 : (turnError : ℝ) * SCALE ≤ 2 ^ exactBits d * (1 / (4 * 2 ^ (d * (d + 38)))) := by
        rw [hP]
        field_simp
        refine le_trans ?_ hU
        norm_num [turnError, SCALE]
      have h4 : (turnError : ℝ) * c * SCALE ≤ 2 ^ exactBits d * c * (1 / (4 * 2 ^ (d * (d + 38)))) := by nlinarith
      have h5 : |2 ^ exactBits d * (c * v) * SCALE - num (exactBits d) * SCALE| ≤ turnError * c * SCALE := by
        rw [← sub_mul, abs_mul, abs_of_pos hS, abs_sub_comm]; exact mul_le_mul_of_nonneg_right h0 hS.le
      rw [abs_le] at *
      constructor <;> nlinarith
    by_contra hge
    rw [not_lt] at hge
    have h6 : (1 : ℝ) / (4 * 2 ^ (d * (d + 38))) * 2 ^ (d * (d + 38)) = 1 / 4 := by field_simp
    rcases abs_choice (v * SCALE - q) with h | h
    · have h7 := htie q
      rw [h] at h2 hge
      rw [abs_of_nonneg (by linarith)] at h7
      nlinarith
    · have h7 := htie (q - 1)
      rw [h] at h2 hge
      rw [abs_of_nonpos (by push_cast; linarith)] at h7
      push_cast at h7
      nlinarith

/-! ### Periods -/

/-- The fixed-point cosine has the period of a whole turn. -/
theorem cosTurn_mod (p a d : Nat) : cosTurn p (a % d) d = cosTurn p a d := by
  rw [cosTurn, cosTurn, Nat.mod_mod]

theorem sinTurn_mod (p a d : Nat) : sinTurn p (a % d) d = sinTurn p a d := by
  rw [sinTurn, sinTurn, ← cosTurn_mod, ← cosTurn_mod p (4 * a + 3 * d), ← Nat.mul_mod_mul_left, Nat.mod_add_mod]

theorem refTwre_mod (L k : Nat) : refTwre L (k % L) = refTwre L k := by
  simp only [refTwre, cosTurn_mod]

theorem refTwim_mod (L k : Nat) : refTwim L (k % L) = refTwim L k := by
  simp only [refTwim, sinTurn_mod]

end Sys2Proof.Machine
end

