-- ==== Sys2Proof/Laws/Ops.lean ====
section
/-! SUPPORT. Once for each shared operation, everything it can do: the commands, the port and the step. -/

namespace Sys2Proof.Machine

/-! ### Commands -/

/-- Every command gives a next state. -/
theorem exec_next (i : Instr) (s : State) : ∃ t, exec i s = .next t := by
  cases i with
  | derive n => simp only [exec, execDerive]; split <;> exact ⟨_, rfl⟩
  | genwin => simp only [exec, execGenwin]; split <;> exact ⟨_, rfl⟩
  | gentw => exact ⟨_, rfl⟩
  | genrev => exact ⟨_, rfl⟩
  | genall n => simp only [exec, execGenall]; split <;> exact ⟨_, rfl⟩
  | wsamp idx => simp only [exec, execWsamp]; split <;> exact ⟨_, rfl⟩
  | twsamp idx => exact ⟨_, rfl⟩
  | bitrev idx => exact ⟨_, rfl⟩

/-- What a command may write at all: it is a fault entry, or it ends `DONE` and leaves the fault record, the parameters
and the host's side alone. -/
theorem exec_cases {i : Instr} {s t : State} (h : exec i s = .next t) :
    t = s.raise .invalidExponent (cmdValue i) ∨
      (t.runState = .done ∧ t.cause = s.cause ∧ t.finfo = s.finfo ∧ t.params = s.params ∧ t.script = s.script ∧
        t.resp = s.resp) := by
  cases i with
  | derive n =>
    simp only [exec, execDerive] at h
    split at h <;> cases h
    · exact .inl rfl
    · exact .inr ⟨rfl, rfl, rfl, rfl, rfl, rfl⟩
  | genwin =>
    simp only [exec, execGenwin] at h
    split at h <;> cases h
    · exact .inl rfl
    · exact .inr ⟨rfl, rfl, rfl, rfl, rfl, rfl⟩
  | gentw => cases h; exact .inr ⟨rfl, rfl, rfl, rfl, rfl, rfl⟩
  | genrev => cases h; exact .inr ⟨rfl, rfl, rfl, rfl, rfl, rfl⟩
  | genall n =>
    simp only [exec, execGenall] at h
    split at h <;> cases h
    · exact .inl rfl
    · exact .inr ⟨rfl, rfl, rfl, rfl, rfl, rfl⟩
  | wsamp idx =>
    simp only [exec, execWsamp] at h
    split at h <;> cases h
    · exact .inl rfl
    · exact .inr ⟨rfl, rfl, rfl, rfl, rfl, rfl⟩
  | twsamp idx => cases h; exact .inr ⟨rfl, rfl, rfl, rfl, rfl, rfl⟩
  | bitrev idx => cases h; exact .inr ⟨rfl, rfl, rfl, rfl, rfl, rfl⟩

/-- The engine: a decoded command is executed, an illegal value is an `InvalidInvocation`. -/
theorem engine_cases {v : Reg} {s t : State} (h : engine v s = .next t) :
    (∃ i, decode v = .command i ∧ exec i s = .next t) ∨
      (∃ why, decode v = .illegal why ∧ t = s.raise .invalidInvocation v) := by
  unfold engine at h
  split at h
  · exact .inl ⟨_, ‹_›, h⟩
  · cases h; exact .inr ⟨_, ‹_›, rfl⟩

theorem engine_next (v : Reg) (s : State) : ∃ t, engine v s = .next t := by
  unfold engine
  split
  · exact exec_next _ s
  · exact ⟨_, rfl⟩

theorem acknowledge_eq_next {o : Host.Outcome State Fault Refusal} {u : State} :
    acknowledge o = .next u ↔ ∃ t, o = .next t ∧ u = t.respond .ack := by
  cases o <;> simp [acknowledge, eq_comm]

/-! ### The port -/

/-- A register and its offset determine each other. -/
theorem csrAt_eq_some {off : Nat} {c : Csr} : csrAt off = some c ↔ c.offset = off := by
  constructor
  · intro h
    simpa using List.find?_some h
  · rintro rfl
    cases c <;> rfl

theorem csrAddr_toNat (c : Csr) : (csrAddr c).toNat = c.offset := by cases c <;> rfl

theorem shapeOk_csrAddr (c : Csr) : shapeOk (csrAddr c) 8 = true := by cases c <;> rfl

theorem regionOf_csrAddr (c : Csr) : regionOf (csrAddr c) = 0 := by cases c <;> rfl

theorem offsetOf_csrAddr (c : Csr) : offsetOf (csrAddr c) = c.offset := by cases c <;> rfl

/-- A write to `CMD`: refused, or the engine's step acknowledged. -/
theorem writeCmd_cases {v : Reg} {s t : State} (h : writeCmd v s = .next t) :
    (s.runState = .fault ∧ t = s.respond .accessFault) ∨
      (s.runState ≠ .fault ∧ ∃ u, engine v s = .next u ∧ t = u.respond .ack) := by
  unfold writeCmd at h
  split at h
  · cases h; exact .inl ⟨‹_›, rfl⟩
  · exact .inr ⟨‹_›, acknowledge_eq_next.mp h⟩

/-- A write to the port: refused, a command, a soft reset, or nothing. -/
theorem portWrite_cases {addr : PortAddr} {width : Nat} {v : Reg} {s t : State} (h : portWrite addr width v s = .next t) :
    t = s.respond .accessFault ∨ t = s.respond .ack ∨ t = s.toReset.respond .ack ∨
      (s.runState ≠ .fault ∧ ∃ u, engine v s = .next u ∧ t = u.respond .ack) := by
  unfold portWrite at h
  split at h
  · cases h; exact .inl rfl
  · split at h
    · rcases writeCmd_cases h with ⟨_, rfl⟩ | h
      · exact .inl rfl
      · exact .inr (.inr (.inr h))
    · unfold writeCtrl at h
      split at h <;> cases h
      · exact .inr (.inr (.inl rfl))
      · exact .inr (.inl rfl)
    · cases h; exact .inl rfl

/-- A write to the port gives a next state. -/
theorem portWrite_next (addr : PortAddr) (width : Nat) (v : Reg) (s : State) : ∃ t, portWrite addr width v s = .next t := by
  unfold portWrite
  split
  · exact ⟨_, rfl⟩
  · split
    · unfold writeCmd
      split
      · exact ⟨_, rfl⟩
      · obtain ⟨u, hu⟩ := engine_next v s
        exact ⟨_, acknowledge_eq_next.mpr ⟨u, hu, rfl⟩⟩
    · unfold writeCtrl; split <;> exact ⟨_, rfl⟩
    · exact ⟨_, rfl⟩

/-- A read changes the answer and nothing else. -/
theorem answerRead_cases {r : ReadResult} {s t : State} (h : answerRead r s = .next t) :
    (∃ v, r = .value v ∧ t = s.respond (.data v)) ∨ (r = .accessFault ∧ t = s.respond .accessFault) := by
  unfold answerRead at h
  split at h <;> cases h
  · exact .inl ⟨_, rfl, rfl⟩
  · exact .inr ⟨rfl, rfl⟩

/-- Everything one host operation can do, when it answers a next state. -/
theorem hostStep_cases {op : HostOp} {s t : State} (h : hostStep op s = .next t) :
    (∃ r, t = s.respond r) ∨ (∃ r, t = s.toReset.respond r) ∨
      (∃ v u, op = .write (csrAddr .cmd) 8 v ∧ s.runState ≠ .fault ∧ engine v s = .next u ∧ t = u.respond .ack) := by
  cases op with
  | read addr width =>
    rcases answerRead_cases h with ⟨v, _, rfl⟩ | ⟨_, rfl⟩
    · exact .inl ⟨_, rfl⟩
    · exact .inl ⟨_, rfl⟩
  | write addr width v =>
    simp only [hostStep, portWrite] at h
    split at h
    · cases h; exact .inl ⟨_, rfl⟩
    · rename_i hok
      simp only [not_or, Bool.not_eq_false, ne_eq, not_not] at hok
      split at h
      · rename_i hc
        rcases writeCmd_cases h with ⟨_, rfl⟩ | ⟨hf, u, hu, rfl⟩
        · exact .inl ⟨_, rfl⟩
        · have hoff : Csr.cmd.offset = offsetOf addr := csrAt_eq_some.mp hc
          have hw : width = 8 := by have := hok.1; simp only [shapeOk, decide_eq_true_eq] at this; exact this.1
          have ha : addr = csrAddr .cmd := by
            apply BitVec.eq_of_toNat_eq
            have h0 := hok.2
            simp only [regionOf, offsetOf, Csr.offset] at h0 hoff
            rw [csrAddr_toNat, Csr.offset]
            omega
          subst hw ha
          exact .inr (.inr ⟨v, u, rfl, hf, hu, rfl⟩)
      · unfold writeCtrl at h
        split at h <;> cases h
        · exact .inr (.inl ⟨_, rfl⟩)
        · exact .inl ⟨_, rfl⟩
      · cases h; exact .inl ⟨_, rfl⟩
  | hardReset => cases h; exact .inr (.inl ⟨_, rfl⟩)

theorem step_idle {s : State} (h : s.script = []) : step s = .next s := by
  simp [step, nextStep, h]

theorem step_cons {s : State} {op : HostOp} {ops : List HostOp} (h : s.script = op :: ops) :
    step s = hostStep op (s.setScript ops) := by
  simp [step, nextStep, h]

end Sys2Proof.Machine
end

