-- ==== Sys2Proof/Laws/PerInstr.lean ====
section
/-! SUPPORT. Laws stated once per command: the word of a command carries its row's opcode and its own immediate. -/

namespace Sys2Proof.Laws.WordFields

/-- The fields of a command's word (spec/30_encoding.md R91, R94, R111), and that its row selects it. -/
def Statement (i : Instr) : Prop :=
  opField (encode i) = (row i.op).pattern.extractLsb' 24 8 ∧ immField (encode i) = i.imm ∧
    (row i.op).selects (encode i) = true

/-- The word of a row whose mask covers the opcode only. -/
theorem fields_of_operand (p : Command) (x : BitVec 24) (hp : p.extractLsb' 0 24 = 0#24) :
    opField (p ||| x.setWidth 32) = p.extractLsb' 24 8 ∧ immField (p ||| x.setWidth 32) = x ∧
      (((p ||| x.setWidth 32) &&& 0xFF000000#32) == p) = true := by
  have low : ∀ j < 24, p.getLsbD j = false := by
    intro j hj
    have := congrArg (fun y => y.getLsbD j) hp
    simpa [BitVec.getLsbD_extractLsb', hj] using this
  refine ⟨?_, ?_, ?_⟩
  · apply BitVec.eq_of_getLsbD_eq
    intro j hj
    have : x.getLsbD (24 + j) = false := BitVec.getLsbD_of_ge x (24 + j) (by omega)
    rw [opField, BitVec.getLsbD_extractLsb', BitVec.getLsbD_extractLsb', BitVec.getLsbD_or, BitVec.getLsbD_setWidth, this]
    simp
  · apply BitVec.eq_of_getLsbD_eq
    intro j hj
    rw [immField, BitVec.getLsbD_extractLsb', BitVec.getLsbD_or, BitVec.getLsbD_setWidth, Nat.zero_add, low j hj]
    simp [hj, show j < 32 by omega]
  · rw [beq_iff_eq]
    apply BitVec.eq_of_getLsbD_eq
    intro j hj
    rw [BitVec.getLsbD_and, BitVec.getLsbD_or, BitVec.getLsbD_setWidth]
    by_cases h : j < 24
    · rw [low j h]
      have : (0xFF000000#32).getLsbD j = false := by interval_cases j <;> rfl
      simp [this]
    · have h1 : (0xFF000000#32).getLsbD j = true := by interval_cases j <;> rfl
      have h2 : x.getLsbD j = false := BitVec.getLsbD_of_ge x j (by omega)
      simp [h1, h2]

theorem derive (n : Int) : Statement (.derive n) := fields_of_operand 0x01000000#32 _ (by decide)
theorem genwin : Statement .genwin := by unfold Statement; decide
theorem gentw : Statement .gentw := by unfold Statement; decide
theorem genrev : Statement .genrev := by unfold Statement; decide
theorem genall (n : Int) : Statement (.genall n) := fields_of_operand 0x05000000#32 _ (by decide)
theorem wsamp (idx : Nat) : Statement (.wsamp idx) := fields_of_operand 0x11000000#32 _ (by decide)
theorem twsamp (idx : Nat) : Statement (.twsamp idx) := fields_of_operand 0x12000000#32 _ (by decide)
theorem bitrev (idx : Nat) : Statement (.bitrev idx) := fields_of_operand 0x13000000#32 _ (by decide)

end Sys2Proof.Laws.WordFields
end

