-- ==== Sys2Proof/Laws/Ties.lean ====
section
/-! SUPPORT. No sum of cosines of multiples of a rational part of a turn, with even integer coefficients, comes close to
an odd integer: what keeps the ideal values of spec/40_numerics.md R121 away from every tie of the quantiser. -/

namespace Sys2Proof.Machine

/-- An eigenvalue of an integer matrix that is the identity modulo 2 is not small: the determinant is odd, so at least 1
in absolute value, and the adjugate's entries are bounded. -/
theorem odd_matrix_eigenvalue {d : Nat} {B : Matrix (Fin d) (Fin d) Int} {M : Nat} {v : Fin d → ℝ} {w : ℝ} {i0 : Fin d}
    (hodd : ∀ i j, (B i j : ZMod 2) = (1 : Matrix (Fin d) (Fin d) (ZMod 2)) i j) (hM : 1 ≤ M)
    (hB : ∀ i j, |B i j| ≤ M) (hv0 : v i0 = 1) (hv : ∀ i, |v i| ≤ 1)
    (hev : (B.map (Int.cast : Int → ℝ)).mulVec v = w • v) : 1 ≤ |w| * (d * (d.factorial * (M : ℝ) ^ d)) := by
  have hdet : (1 : ℝ) ≤ |(B.det : ℝ)| := by
    have h2 : ((B.det : Int) : ZMod 2) = 1 := by
      rw [show ((B.det : Int) : ZMod 2) = Int.castRingHom (ZMod 2) B.det from rfl, RingHom.map_det]
      rw [show (Int.castRingHom (ZMod 2)).mapMatrix B = 1 from Matrix.ext hodd, Matrix.det_one]
    have h3 : B.det ≠ 0 := by
      intro h; rw [h] at h2; exact absurd h2 (by decide)
    exact_mod_cast Int.one_le_abs h3
  have hadj : ∀ i j, |(B.adjugate i j : ℝ)| ≤ d.factorial * (M : ℝ) ^ d := by
    intro i j
    have := Matrix.det_le (A := B.updateRow j (Pi.single i 1)) (abv := AbsoluteValue.abs) (x := (M : Int)) (by
      intro r c
      rw [AbsoluteValue.abs_apply, Matrix.updateRow_apply]
      split
      · rw [Pi.single_apply]; split <;> (simp <;> omega)
      · exact hB r c)
    rw [Fintype.card_fin, AbsoluteValue.abs_apply, nsmul_eq_mul] at this
    rw [Matrix.adjugate_apply]
    exact_mod_cast this
  have hmul : (B.adjugate.map (Int.cast : Int → ℝ)).mulVec (w • v) = (B.det : ℝ) • v := by
    rw [← hev, Matrix.mulVec_mulVec]
    have : B.adjugate.map (Int.cast : Int → ℝ) * B.map (Int.cast : Int → ℝ) = (B.det : ℝ) • (1 : Matrix (Fin d) (Fin d) ℝ) := by
      have h := congrArg (fun A : Matrix (Fin d) (Fin d) Int => A.map (Int.castRingHom ℝ)) (Matrix.adjugate_mul B)
      rw [Matrix.map_mul] at h
      rw [show (Int.cast : Int → ℝ) = Int.castRingHom ℝ from rfl, h]
      ext i j
      rw [Matrix.map_apply, Matrix.smul_apply, Matrix.smul_apply, Matrix.one_apply, Matrix.one_apply]
      split <;> simp
    rw [this, Matrix.smul_mulVec, Matrix.one_mulVec]
  have h0 := congrFun hmul i0
  rw [Matrix.mulVec_smul, Pi.smul_apply, Pi.smul_apply, hv0, smul_eq_mul, smul_eq_mul, mul_one] at h0
  rw [← h0, abs_mul] at hdet
  refine hdet.trans (mul_le_mul_of_nonneg_left ?_ (abs_nonneg _))
  rw [Matrix.mulVec, dotProduct]
  refine (Finset.abs_sum_le_sum_abs _ _).trans ?_
  refine (Finset.sum_le_card_nsmul _ _ (d.factorial * (M : ℝ) ^ d) fun j _ => ?_).trans (by simp)
  rw [abs_mul, Matrix.map_apply]
  calc _ ≤ (d.factorial * (M : ℝ) ^ d) * 1 := mul_le_mul (hadj i0 j) (hv j) (abs_nonneg _) (by positivity)
    _ = _ := mul_one _

/-- The sum of the shifts by `k` and by `-k` around `d` places. -/
def shiftSum (d k : Nat) : Matrix (Fin d) (Fin d) Int := fun i j =>
  (if j.val = (i.val + k) % d then 1 else 0) + (if j.val = (i.val + (d - 1) * k) % d then 1 else 0)

/-- Its entries are small. -/
theorem shiftSum_abs (d k : Nat) (i j : Fin d) : |shiftSum d k i j| ≤ 2 := by
  rw [shiftSum]; split <;> split <;> decide

/-- The cosines of the multiples of a part of a turn. -/
noncomputable def turnVec (a d : Nat) : Fin d → ℝ := fun i => Real.cos (2 * Real.pi * a * i.val / d)

/-- The cosines have the period of a whole turn. -/
theorem turnVec_mod {a d : Nat} (hd : 0 < d) (m : Nat) :
    turnVec a d ⟨m % d, Nat.mod_lt _ hd⟩ = Real.cos (2 * Real.pi * a * m / d) := by
  have hd0 : (d : ℝ) ≠ 0 := by exact_mod_cast hd.ne'
  have : (m : ℝ) = d * (m / d : Nat) + (m % d : Nat) := by exact_mod_cast (Nat.div_add_mod m d).symm
  rw [turnVec, show 2 * Real.pi * a * m / d = 2 * Real.pi * a * ((m % d : Nat) : ℝ) / d + (a * (m / d) : Nat) * (2 * Real.pi) by
    rw [this]; push_cast; field_simp; ring, Real.cos_add_nat_mul_two_pi]

/-- The vector of cosines is an eigenvector of every such sum. -/
theorem shiftSum_mulVec {a d : Nat} (hd : 0 < d) (k : Nat) :
    ((shiftSum d k).map (Int.cast : Int → ℝ)).mulVec (turnVec a d) =
      (2 * Real.cos (2 * Real.pi * (k * a) / d)) • turnVec a d := by
  have hd0 : (d : ℝ) ≠ 0 := by exact_mod_cast hd.ne'
  funext i
  have hsum : ∀ m : Nat, ∑ j : Fin d, ((if j.val = m % d then (1 : Int) else 0 : Int) : ℝ) * turnVec a d j =
      Real.cos (2 * Real.pi * a * m / d) := by
    intro m
    rw [← turnVec_mod hd m, Finset.sum_eq_single ⟨m % d, Nat.mod_lt _ hd⟩]
    · simp
    · intro j _ hj
      have : j.val ≠ m % d := fun h => hj (Fin.ext h)
      simp [this]
    · simp
  simp only [Matrix.mulVec, dotProduct, Matrix.map_apply, shiftSum, Int.cast_add, add_mul, Finset.sum_add_distrib, hsum,
    Pi.smul_apply, smul_eq_mul]
  rw [show 2 * Real.pi * a * ((i.val + k : Nat) : ℝ) / d = 2 * Real.pi * a * i.val / d + 2 * Real.pi * (k * a) / d by
      push_cast; ring,
    show 2 * Real.pi * a * ((i.val + (d - 1) * k : Nat) : ℝ) / d =
      2 * Real.pi * a * i.val / d - 2 * Real.pi * (k * a) / d + (a * k : Nat) * (2 * Real.pi) by
      rw [show ((i.val + (d - 1) * k : Nat) : ℝ) = i.val + (d - 1) * k by push_cast [Nat.cast_sub hd]; ring]
      push_cast; field_simp; ring,
    Real.cos_add_nat_mul_two_pi, Real.cos_add, Real.cos_sub, turnVec]
  ring

/-- The distance of such a sum from every odd integer `n`. -/
theorem tie_distance (a : Nat) {d : Nat} (hd : 1 ≤ d) {c0 c1 c2 c3 n : Int} (h0 : 2 ∣ c0) (h1 : 2 ∣ c1) (h2 : 2 ∣ c2)
    (h3 : 2 ∣ c3) (hn : n % 2 = 1) (hc : |c0| + 2 * |c1| + 2 * |c2| + 2 * |c3| ≤ 2 ^ 36) :
    1 ≤ |c0 + c1 * (2 * Real.cos (2 * Real.pi * a / d)) + c2 * (2 * Real.cos (4 * Real.pi * a / d)) +
      c3 * (2 * Real.cos (6 * Real.pi * a / d)) - n| * 2 ^ (d * (d + 38)) := by
  have hpow : (1 : ℝ) ≤ 2 ^ (d * (d + 38)) := one_le_pow₀ (by norm_num)
  by_cases hbig : |n| ≤ 2 ^ 36
  · set B : Matrix (Fin d) (Fin d) Int := (c0 - n) • (1 : Matrix (Fin d) (Fin d) Int) + c1 • shiftSum d 1 +
      c2 • shiftSum d 2 + c3 • shiftSum d 3 with hBdef
    have key := odd_matrix_eigenvalue (B := B) (M := 2 ^ 37) (v := turnVec a d)
      (w := c0 + c1 * (2 * Real.cos (2 * Real.pi * a / d)) + c2 * (2 * Real.cos (4 * Real.pi * a / d)) +
        c3 * (2 * Real.cos (6 * Real.pi * a / d)) - n) (i0 := ⟨0, hd⟩) (by
        intro i j
        have e : ∀ c : Int, 2 ∣ c → (c : ZMod 2) = 0 := fun c h => (ZMod.intCast_zmod_eq_zero_iff_dvd c 2).mpr h
        have en : ((c0 - n : Int) : ZMod 2) = 1 := by
          have : ((c0 - n - 1 : Int) : ZMod 2) = 0 := e _ (by omega)
          rw [Int.cast_sub] at this
          rw [sub_eq_zero.mp this, Int.cast_one]
        simp only [hBdef, Matrix.add_apply, Matrix.smul_apply, smul_eq_mul, Int.cast_add, Int.cast_mul, e _ h1, e _ h2,
          e _ h3, en, zero_mul, add_zero, one_mul]
        simp only [Matrix.one_apply]
        split <;> simp)
      (by norm_num) (by
        intro i j
        simp only [hBdef, Matrix.add_apply, Matrix.smul_apply, smul_eq_mul]
        have e0 : |(c0 - n) * (1 : Matrix (Fin d) (Fin d) Int) i j| ≤ |c0| + |n| := by
          rw [Matrix.one_apply]; split
          · rw [mul_one]; exact abs_sub _ _
          · rw [mul_zero, abs_zero]; positivity
        have e : ∀ (c : Int) (k : Nat), |c * shiftSum d k i j| ≤ 2 * |c| := by
          intro c k; rw [abs_mul]
          have := shiftSum_abs d k i j
          nlinarith [abs_nonneg c]
        have := e c1 1; have := e c2 2; have := e c3 3
        push_cast
        calc _ ≤ |(c0 - n) * (1 : Matrix (Fin d) (Fin d) Int) i j| + |c1 * shiftSum d 1 i j| + |c2 * shiftSum d 2 i j| +
              |c3 * shiftSum d 3 i j| := by
              refine (abs_add_le _ _).trans (add_le_add_left ((abs_add_le _ _).trans (add_le_add_left (abs_add_le _ _) _)) _)
          _ ≤ _ := by norm_num at *; omega)
      (by simp [turnVec]) (fun i => Real.abs_cos_le_one _) (by
        have hs := fun k => shiftSum_mulVec (a := a) hd k
        have e : B.map (Int.cast : Int → ℝ) = ((c0 : ℝ) - n) • (1 : Matrix (Fin d) (Fin d) ℝ) +
            (c1 : ℝ) • (shiftSum d 1).map (Int.cast : Int → ℝ) + (c2 : ℝ) • (shiftSum d 2).map (Int.cast : Int → ℝ) +
            (c3 : ℝ) • (shiftSum d 3).map (Int.cast : Int → ℝ) := by
          ext i j
          simp only [hBdef, Matrix.map_apply, Matrix.add_apply, Matrix.smul_apply, smul_eq_mul, Matrix.one_apply]
          push_cast
          split <;> simp
        rw [e]
        simp only [Matrix.add_mulVec, Matrix.smul_mulVec, Matrix.one_mulVec, hs]
        funext i
        simp only [Pi.add_apply, Pi.smul_apply, smul_eq_mul]
        push_cast
        rw [show 2 * Real.pi * (1 * (a : ℝ)) / d = 2 * Real.pi * a / d by ring,
          show 2 * Real.pi * (2 * (a : ℝ)) / d = 4 * Real.pi * a / d by ring,
          show 2 * Real.pi * (3 * (a : ℝ)) / d = 6 * Real.pi * a / d by ring]
        ring)
    refine key.trans (mul_le_mul_of_nonneg_left ?_ (abs_nonneg _))
    have hf : d * d.factorial ≤ 2 ^ (d * (d + 1)) := by
      calc d * d.factorial ≤ 2 ^ d * (2 ^ d) ^ d :=
            Nat.mul_le_mul Nat.lt_two_pow_self.le
              ((Nat.factorial_le_pow d).trans (Nat.pow_le_pow_left Nat.lt_two_pow_self.le d))
        _ = 2 ^ (d * (d + 1)) := by rw [← pow_mul, ← pow_add]; congr 1; ring
    have hf' : (d : ℝ) * d.factorial ≤ 2 ^ (d * (d + 1)) := by exact_mod_cast hf
    calc (d : ℝ) * (d.factorial * ((2 ^ 37 : Nat) : ℝ) ^ d) = (d * d.factorial) * (2 ^ 37) ^ d := by push_cast; ring
      _ ≤ 2 ^ (d * (d + 1)) * (2 ^ 37) ^ d := mul_le_mul_of_nonneg_right hf' (by positivity)
      _ = 2 ^ (d * (d + 38)) := by rw [← pow_mul, ← pow_add]; congr 1; ring
  · have hcos := fun x => Real.abs_cos_le_one x
    have e : ∀ (c : Int) (x : ℝ), |(c : ℝ) * (2 * Real.cos x)| ≤ 2 * |(c : ℝ)| := by
      intro c x; rw [abs_mul, abs_mul, abs_two]
      nlinarith [abs_nonneg (c : ℝ), hcos x]
    have e1 := e c1 (2 * Real.pi * a / d); have e2 := e c2 (4 * Real.pi * a / d); have e3 := e c3 (6 * Real.pi * a / d)
    have hn' : (2 : ℝ) ^ 36 + 1 ≤ |(n : ℝ)| := by exact_mod_cast (show (2 : Int) ^ 36 + 1 ≤ |n| by omega)
    have hc' : |(c0 : ℝ)| + 2 * |(c1 : ℝ)| + 2 * |(c2 : ℝ)| + 2 * |(c3 : ℝ)| ≤ 2 ^ 36 := by exact_mod_cast hc
    have : 1 ≤ |c0 + c1 * (2 * Real.cos (2 * Real.pi * a / d)) + c2 * (2 * Real.cos (4 * Real.pi * a / d)) +
      c3 * (2 * Real.cos (6 * Real.pi * a / d)) - n| := by
      generalize (c1 : ℝ) * (2 * Real.cos (2 * Real.pi * a / d)) = x1 at *
      generalize (c2 : ℝ) * (2 * Real.cos (4 * Real.pi * a / d)) = x2 at *
      generalize (c3 : ℝ) * (2 * Real.cos (6 * Real.pi * a / d)) = x3 at *
      have t1 := abs_sub_abs_le_abs_sub (n : ℝ) (c0 + x1 + x2 + x3)
      have t2 : |(c0 : ℝ) + x1 + x2 + x3| ≤ |(c0 : ℝ)| + |x1| + |x2| + |x3| :=
        (abs_add_le _ _).trans (by gcongr; exact (abs_add_le _ _).trans (by gcongr; exact abs_add_le _ _))
      rw [abs_sub_comm]
      linarith
    nlinarith
end Sys2Proof.Machine
end

