-- ==== Sys2Proof/Tests/Slice0.lean ====
section
/-! SUPPORT. Tests of the model on values from the spec (its examples and spec/95_test_vectors.md; the id stands beside
each), the WellFormed smoke tests, and for each statement with hypotheses a witness that meets them. -/

namespace Sys2Proof.Tests
open Sys2Proof.Machine

-- One theorem at a time: many kernel evaluations that wait for each other would each hold a thread.
set_option Elab.async false

/-! ### Helpers -/

/-- A block after `DERIVE n`, with the test vectors' `NMAX = 12` (section 2.2). -/
def derived (n : Nat) : State :=
  { State.reset with
    regN := BitVec.ofNat 64 n, regL := BitVec.ofNat 64 (2 ^ n), regM := BitVec.ofNat 64 (2 ^ n / 2), runState := .done,
    params := { nmax := 12, numDev := [] } }

/-- The next state, if there is one. -/
def nextOf : Host.Outcome State Fault Refusal → Option State
  | .next t => some t
  | _       => none

/-- One host operation on a state. -/
def after (l : ScriptLine) (s : State) : Option State := nextOf (step (s.setScript [l.expand]))

/-- What the host gets back from one line. -/
def answer (l : ScriptLine) (s : State) : Option PortResp := (after l s).map (fun t => t.resp)

/-- The state after `GENALL n` from reset with `NMAX = 12`. -/
def generated (n : Nat) : State := ((derived 0).deriveSizes n).storeAll n |>.validateWin.validateTw.validateRev.complete

/-! ### WellFormed: a term each check refuses, and the boundary it accepts -/

theorem test_wf_derive_low : (Instr.derive (-8388609)).wf = false ∧ (Instr.derive (-8388608)).wf = true := by decide
theorem test_wf_derive_high : (Instr.derive 8388608).wf = false ∧ (Instr.derive 8388607).wf = true := by decide
theorem test_wf_genall_low : (Instr.genall (-8388609)).wf = false ∧ (Instr.genall (-8388608)).wf = true := by decide
theorem test_wf_genall_high : (Instr.genall 8388608).wf = false ∧ (Instr.genall 8388607).wf = true := by decide
theorem test_wf_wsamp : (Instr.wsamp 16777216).wf = false ∧ (Instr.wsamp 16777215).wf = true := by decide
theorem test_wf_twsamp : (Instr.twsamp 16777216).wf = false ∧ (Instr.twsamp 16777215).wf = true := by decide
theorem test_wf_bitrev : (Instr.bitrev 16777216).wf = false ∧ (Instr.bitrev 16777215).wf = true := by decide
theorem test_wf_nmax_low : (Config.Params.mk 0 []).wf = false ∧ (Config.Params.mk 1 []).wf = true := by decide
theorem test_wf_nmax_high : (Config.Params.mk 25 []).wf = false ∧ (Config.Params.mk 24 []).wf = true := by decide

/-! ### Decoding: words written out from R94 (section 2.1) -/

theorem test_decode_derive : decode 0x0000000001000003#64 = .command (.derive 3) ∧
    decode 0x0000000001FFFFFF#64 = .command (.derive (-1)) := by decide
theorem test_decode_genwin : decode 0x0000000002000000#64 = .command .genwin := by decide
theorem test_decode_gentw : decode 0x0000000003000000#64 = .command .gentw := by decide
theorem test_decode_genrev : decode 0x0000000004000000#64 = .command .genrev := by decide
theorem test_decode_genall : decode 0x000000000500000A#64 = .command (.genall 10) ∧
    decode 0x0000000005800000#64 = .command (.genall (-8388608)) := by decide
theorem test_decode_wsamp : decode 0x0000000011FFFFFF#64 = .command (.wsamp 16777215) := by decide
theorem test_decode_twsamp : decode 0x0000000012000001#64 = .command (.twsamp 1) := by decide
theorem test_decode_bitrev : decode 0x0000000013ABCDEF#64 = .command (.bitrev 0xABCDEF) := by decide
/-- E14 to E24. -/
theorem test_decode_illegal : decode 0x0000000000000000#64 = .illegal .unassignedOp ∧
    decode 0xFFFFFFFFFFFFFFFF#64 = .illegal .upperHalf ∧ decode 0x0000000105000003#64 = .illegal .upperHalf ∧
    decode 0x0000000004FFFFFF#64 = .illegal .operandInZ ∧ decode 0x0000000006000000#64 = .illegal .unassignedOp ∧
    decode 0x0000000010000000#64 = .illegal .unassignedOp ∧ decode 0x0000000014000000#64 = .illegal .unassignedOp ∧
    decode 0x0000000081000003#64 = .illegal .unassignedOp := by decide
/-- R111's examples. -/
theorem test_encode_examples : encode (.genall 3) = 0x05000003#32 ∧ encode (.derive (-1)) = 0x01FFFFFF#32 ∧
    encode .genwin = 0x02000000#32 ∧ encode (.bitrev 6) = 0x13000006#32 := by decide
theorem test_table_word : decodeTableWord 32 0x12000005 = some (.twsamp 5) ∧ decodeTableWord 32 0x06000000 = none := by
  decide

/-! ### The assembler and the printed form (R111, R130) -/

theorem test_assemble_genall : assemble ['G', 'E', 'N', 'A', 'L', 'L', ' ', '3'] = some (.genall 3) := by decide
theorem test_assemble_derive :
    assemble ['D', 'E', 'R', 'I', 'V', 'E', ' ', '-', '1', ' ', '#', 'x'] = some (.derive (-1)) := by decide
theorem test_assemble_bitrev :
    assemble ['B', 'I', 'T', 'R', 'E', 'V', ' ', '0', 'x', 'E'] = some (.bitrev 14) := by decide
theorem test_assemble_refuses : assemble ['B', 'I', 'T', 'R', 'E', 'V', ' ', '-', '1'] = none ∧
    assemble ['W', 'S', 'A', 'M', 'P', ' ', '1', '6', '7', '7', '7', '2', '1', '6'] = none ∧
    assemble ['G', 'E', 'N', 'T', 'W', ' ', '0'] = none := by decide
/-- Q-3 and Q-6. -/
theorem test_render : render10 600000 = ['0', '.', '0', '0', '0', '0', '6', '0', '0', '0', '0', '0'] ∧
    render10 (-7071067812) = ['-', '0', '.', '7', '0', '7', '1', '0', '6', '7', '8', '1', '2'] := by decide +kernel

/-! ### Numerics (sections 2.3, 2.4, 2.8) -/

/-- Q-4, Q-10, Q-11, Q-12 and Q-9. -/
theorem test_q10 : q10 520575 1000000 = 5205750000 ∧ q10 5 100000000000 = 0 ∧ q10 15 100000000000 = 2 ∧
    q10 (-4) 100000000000 = 0 ∧ q10 (-1) 1 = -10000000000 := by decide +kernel
theorem test_tc64 : tc64 (-7071067812) = 0xFFFFFFFE5A88115C#64 ∧ tc64 10000000000 = 0x00000002540BE400#64 := by
  decide +kernel
/-- The first 25 hexadecimal digits of `π` after the point, as published. -/
theorem test_piFix : piFix 128 / 2 ^ 28 = 0x3243F6A8885A308D313198A2E0 := by decide +kernel
/-- The enclosure of a tie (Q-11: `1.5 * 10^-10`) does not settle; one of a value away from a tie does. -/
theorem test_settles : settles 15 1 100000000000 = false ∧ settles 14 0 100000000000 = true := by decide +kernel
/-- The precise path gives the same exact values (R125). -/
theorem test_exactBits : q10 (winFix (exactBits 3) 4 1) (100000 * 2 ^ exactBits 3) = 5205750000 ∧
    q10 (cosTurn (exactBits 8) 3 8) (1 * 2 ^ exactBits 8) = -7071067812 := by decide +kernel
theorem test_refWin_8 : (List.range 8).map (refWin 8) =
    [600000, 333917235, 3328335043, 8893697722, 8893697722, 3328335043, 333917235, 600000] := by decide +kernel
theorem test_refWin_large : [refWin 1024 1, refWin 1024 341, refWin 1024 511, refWin 4096 2, refWin 4096 2047] =
    [605336, 5205750000, 9999945371, 601332, 9999996591] := by decide +kernel
theorem test_refTw_16 : (List.range 8).map (fun k => (refTwre 16 k, refTwim 16 k)) =
    [(10000000000, 0), (9238795325, 3826834324), (7071067812, 7071067812), (3826834324, 9238795325), (0, 10000000000),
      (-3826834324, 9238795325), (-7071067812, 7071067812), (-9238795325, 3826834324)] := by decide +kernel
theorem test_refTw_large : [refTwre 1024 85, refTwim 1024 85, refTwre 4096 2047, refTwim 4096 682] =
    [8670462455, 4982276670, -9999988235, 8655136241] := by decide +kernel
theorem test_reverseBits : [reverseBits 0xDEF 12, reverseBits 1000 10, reverseBits 341 10, reverseBits 5 0] =
    [3963, 95, 682, 0] := by decide +kernel

/-! ### The commands, one step each -/

/-- D-4. -/
theorem test_derive : (after (.command (.derive 3)) (derived 0)).map (fun t => (t.regN, t.regL, t.regM, t.statusWord)) =
    some (3#64, 8#64, 4#64, 0x001#64) := by decide +kernel
/-- D-7. -/
theorem test_derive_above_nmax :
    (after (.command (.derive 13)) (derived 3)).map (fun t => (t.regN, t.statusWord, t.finfo)) =
      some (3#64, 0x202#64, 0x0100000D#64) := by decide +kernel
/-- R151's example. -/
theorem test_genwin : (after (.command .genwin) (derived 2)).map (fun t => ((List.range 5).map t.winElem, t.statusWord)) =
    some ([some 600000#64, some 5205750000#64, some 5205750000#64, some 600000#64, none], 0x005#64) := by decide +kernel
/-- F-7. -/
theorem test_genwin_reset : (after (.command .genwin) State.reset).map (fun t => (t.statusWord, t.finfo)) =
    some (0x202#64, 0x02000000#64) := by decide +kernel
/-- W-2 and W-4. -/
theorem test_wsamp : (after (.command (.wsamp 3)) (derived 3)).map (fun t => (t.res0, t.res1)) =
    some (0x00000002121B0EBA#64, 0#64) := by decide +kernel
theorem test_wsamp_outside : (after (.command (.wsamp 10)) (derived 3)).map (fun t => t.res0) =
    some 0x00000002121B0EBA#64 := by decide +kernel
/-- R161's example. -/
theorem test_gentw : (after (.command .gentw) (derived 3)).map
    (fun t => ([t.twElem 0 false, t.twElem 1 true, t.twElem 2 false, t.twElem 3 false, t.twElem 4 false], t.statusWord)) =
    some ([some 0x00000002540BE400#64, some 0x00000001A577EEA4#64, some 0#64, some 0xFFFFFFFE5A88115C#64, none],
      0x009#64) := by decide +kernel
/-- T-6 and T-9. -/
theorem test_twsamp : (after (.command (.twsamp 6)) (derived 3)).map (fun t => (t.res0, t.res1)) =
    some (0#64, 0xFFFFFFFDABF41C00#64) := by decide +kernel
theorem test_twsamp_reset : (after (.command (.twsamp 5)) State.reset).map (fun t => (t.res0, t.res1, t.statusWord)) =
    some (0x00000002540BE400#64, 0#64, 0x001#64) := by decide +kernel
/-- R171's example. -/
theorem test_genrev : (after (.command .genrev) (derived 3)).map (fun t => ((List.range 9).map t.revElem, t.statusWord)) =
    some ([some 0#64, some 4#64, some 2#64, some 6#64, some 1#64, some 5#64, some 3#64, some 7#64, none], 0x011#64) := by
  decide +kernel
/-- B-3 and B-5. -/
theorem test_bitrev : (after (.command (.bitrev 14)) (derived 3)).map (fun t => (t.res0, t.res1)) = some (3#64, 0#64) := by
  decide +kernel
theorem test_bitrev_wide : (after (.command (.bitrev 0xABCDEF)) (derived 12)).map (fun t => t.res0) = some 3963#64 := by
  decide +kernel
/-- A-1. -/
theorem test_genall : (after (.command (.genall 1)) State.reset).map
    (fun t => ([t.winElem 0, t.winElem 1, t.twElem 0 false, t.twElem 0 true, t.revElem 0, t.revElem 1, t.winElem 2],
      t.statusWord)) =
    some ([some 600000#64, some 600000#64, some 0x00000002540BE400#64, some 0#64, some 0#64, some 1#64, none],
      0x01D#64) := by decide +kernel
/-- A-7. -/
theorem test_genall_zero : (after (.command (.genall 0)) (generated 1)).map
    (fun t => (t.regN, t.regL, t.regM, t.statusWord, t.finfo, t.winElem 1)) =
    some (1#64, 2#64, 1#64, 0x21E#64, 0x05000000#64, some 600000#64) := by decide +kernel

/-! ### The port (section 3, sections 2.7 and 4) -/

/-- 3.1, 3.2, 3.16 and 3.17. -/
theorem test_read_csr : [answer (.rdcsr .status) (generated 3), answer (.rdcsr .inlen) (generated 3),
      answer (.rdcsr .cmd) (generated 3), answer (.rdcsr .cap) (generated 3)] =
    [some (.data 0x1D#64), some (.data 8#64), some (.data 0#64), some (.data 12#64)] := by decide +kernel
/-- 3.3, 3.4, 3.6, 3.7, 3.9, 3.10 and 3.12. -/
theorem test_read_tables : [answer (.rdw 3) (generated 3), answer (.rdw 8) (generated 3), answer (.rdt 1 true) (generated 3),
      answer (.rdt 3 false) (generated 3), answer (.rdt 4 false) (generated 3), answer (.rdr 1) (generated 3),
      answer (.rdr 8) (generated 3)] =
    [some (.data 0x00000002121B0EBA#64), some .accessFault, some (.data 0x00000001A577EEA4#64),
      some (.data 0xFFFFFFFE5A88115C#64), some .accessFault, some (.data 4#64), some .accessFault] := by decide +kernel
/-- 3.13, 3.14, 3.15, 3.18 and 3.19. -/
theorem test_access_faults :
    [HostOp.read 0x0800001C#29 8, .read 0x08000018#29 4, .read 0x00000050#29 8, .write 0x08000000#29 8 0#64,
        .write 0x00000020#29 8 5#64].map
      (fun op => (nextOf (hostStep op (generated 1))).map (fun t => decide (t = (generated 1).respond .accessFault))) =
    List.replicate 5 (some true) := by decide +kernel
/-- 3.25: the byte lanes of `TW[1].im`. -/
theorem test_byte_lanes : (List.range 8).map (fun j => (generated 3).mem.read (0x10000018 + j)) =
    [0xA4#8, 0xEE#8, 0x77#8, 0xA5#8, 0x01#8, 0x00#8, 0x00#8, 0x00#8].map some := by decide +kernel
/-- F-1 and F-6. -/
theorem test_illegal_word : (after (.cmdw 0#64) (generated 1)).map (fun t => (t.statusWord, t.finfo)) =
      some (0x11E#64, 0#64) ∧
    (after (.cmdw 0x0000000105000003#64) State.reset).map (fun t => (t.statusWord, t.finfo)) =
      some (0x102#64, 0x0000000105000003#64) := by decide +kernel
/-- F-2 and F-4. -/
theorem test_fault_is_sticky :
    (after (.command (.genall 3)) ((derived 2).raise .invalidExponent 5#64)).map (fun t => (t.resp, t.block)) =
      some (.accessFault, ((derived 2).raise .invalidExponent 5#64).block) ∧
    (after .srst ((derived 2).raise .invalidExponent 5#64)).map (fun t => (t.statusWord, t.regL, t.finfo)) =
      some (0#64, 1#64, 0#64) := by decide +kernel
/-- The host's placing of a word: the next step from reset runs it. -/
theorem test_withFetchWord : (nextOf (step (State.reset.withFetchWord 32 0x01000003))).map (fun t => t.regL) =
    some 8#64 := by decide +kernel

/-! ### Witnesses: the hypotheses of each statement can be met -/

theorem witness_DecodedValueIsItsEncoding : decode 0x0000000013FFFFFF#64 = .command (.bitrev 16777215) := by decide
theorem witness_DecoderFollowsOpcodeTable : row .genall ∈ opcodeTable ∧ (row .genall).selects 0x05FFFFFF#32 = true ∧
    ∀ i, decode 0x0000000002000001#64 ≠ .command i := by
  refine ⟨by decide, by decide, fun i h => ?_⟩
  rw [show decode 0x0000000002000001#64 = .illegal .operandInZ by decide] at h
  cases h
/-- The boundaries of the assigned opcodes: 5 and 6, 16 and 17, 19 and 20, and the first value above 32 bits. -/
theorem witness_IllegalValuesAreExactlyListed : decode 0x0000000005000000#64 = .command (.genall 0) ∧
    decode 0x0000000006000000#64 = .illegal .unassignedOp ∧ decode 0x0000000010000000#64 = .illegal .unassignedOp ∧
    decode 0x0000000011000000#64 = .command (.wsamp 0) ∧ decode 0x0000000013000000#64 = .command (.bitrev 0) ∧
    decode 0x0000000014000000#64 = .illegal .unassignedOp ∧ decode 0x0000000100000000#64 = .illegal .upperHalf := by decide

/-- A block whose next host operation is the write of `v` to `CMD`. -/
def withCmd (s : State) (v : Reg) : State := s.setScript [cmdWrite v]

theorem witness_StepRunsDecodedCommand : (withCmd (derived 3) 0x13000006#64).script = [cmdWrite 0x13000006#64] ∧
    (withCmd (derived 3) 0x13000006#64).runState ≠ .fault ∧ decode 0x13000006#64 = .command (.bitrev 6) ∧
    decodeTableWord 32 0x13000006 = some (.bitrev 6) ∧ ∃ t, exec (.bitrev 6) (derived 3) = .next t :=
  ⟨rfl, by decide, by decide, by decide, _, rfl⟩
theorem witness_CommandAdmission : (withCmd ((derived 3).raise .invalidExponent 0#64) 0x02000000#64).runState = .fault ∧
    (withCmd (derived 3) 0x02000000#64).runState ≠ .fault := by decide
theorem witness_EngineFaultWritesOnlyItsRecord : State.reset.runState ≠ .fault ∧
    engine 0x02000000#64 State.reset = .next (State.reset.raise .invalidExponent 0x02000000#64) ∧
    engine 0x06000000#64 State.reset = .next (State.reset.raise .invalidInvocation 0x06000000#64) :=
  ⟨by decide, rfl, rfl⟩
theorem witness_InvalidExponentCauses : (derived 3).runState ≠ .fault ∧ (derived 3).cause = .none := by decide
/-- An operation that resets and one that does not, in `FAULT`. -/
theorem witness_FaultIsLeftOnlyByReset : (State.reset.raise .invalidExponent 0#64).runState = .fault ∧
    HostOp.resets .hardReset = true ∧ HostOp.resets (ScriptLine.srst.expand) = true ∧
    HostOp.resets (.write (csrAddr .ctrl) 8 2#64) = false ∧
    (nextOf (step ((State.reset.raise .invalidExponent 0#64).setScript [.hardReset]))).isSome = true ∧
    (nextOf (step ((State.reset.raise .invalidExponent 0#64).setScript [cmdWrite 0#64]))).isSome = true := by
  decide +kernel
theorem witness_ReadsStillWorkInFault : regionOf 0x08000000#29 = 1 ∧ regionOf 0x07FFFFF8#29 = 0 ∧
    regionOf 0x10000000#29 = 2 ∧ regionOf 0x1FFFFFF8#29 = 3 := by decide
theorem witness_DeriveCompletes : (0 : Nat) ≤ State.reset.params.nmax ∧ 24 ≤ State.reset.params.nmax := by decide
theorem witness_DeriveRejects : (-1 : Int) < 0 ∧ (State.reset.params.nmax : Int) < 25 := by decide
theorem witness_GenwinCompletes : 2 ≤ (derived 1).lVal := by decide
theorem witness_WindowUndefinedFaults : State.reset.lVal ≤ 1 ∧ State.reset.nVal = 0 := by decide
theorem witness_WsampCompletes : 2 ≤ (derived 12).lVal := by decide
theorem witness_EmptyTwiddleTable : State.reset.mVal = 0 := by decide
theorem witness_GenallCompletes : State.reset.params.wf = true ∧ 1 ≤ 24 ∧ 24 ≤ State.reset.params.nmax := by decide
theorem witness_GenallEqualsComponents : State.reset.params.wf = true ∧ (1 : Int) ≤ State.reset.params.nmax ∧
    List.Perm [Instr.genrev, .gentw, .genwin] [.genwin, .gentw, .genrev] := by decide
theorem witness_GenerationDependsOnExponentOnly : (derived 3).params = (derived 5).params ∧
    (nextOf (exec (.genall 2) (derived 3))).isSome = true ∧ (nextOf (exec (.genall 2) (derived 5))).isSome = true := by
  decide +kernel
theorem witness_ResultRegisters : (derived 3).runState ≠ .fault ∧
    (nextOf (exec (.wsamp 1) (derived 3))).map (fun t => t.runState) = some .done ∧
    (nextOf (exec (.wsamp 1) (derived 0))).map (fun t => t.runState) = some .fault := by decide +kernel
theorem witness_SizesWrittenOnlyByDeriveGenallReset :
    (after (.command (.derive 4)) (derived 3)).map (fun t => t.regN) = some 4#64 ∧
    (after .srst (derived 3)).map (fun t => t.regN) = some 0#64 ∧
    (after (.command .gentw) (derived 3)).map (fun t => t.regN) = some 3#64 := by decide +kernel
theorem witness_FlagsFollowTheEventTable : (derived 3).runState ≠ .fault ∧
    (nextOf (exec .genrev (derived 3))).map (fun t => t.runState) = some .done ∧
    answer (.rdw 0) (derived 3) = some .accessFault ∧
    HostOp.resets ((ScriptLine.rdcsr .exp).expand) = false ∧ HostOp.resets .hardReset = true ∧
    (nextOf (engine 0#64 (derived 3))).map (fun t => t.runState) = some .fault := by decide +kernel
theorem witness_IdleBlockKeepsState : (derived 3).script = [] := by decide
theorem witness_RegisterReads : State.reset.params.wf = true ∧
    (State.reset.setScript [.read (csrAddr .cap) 8]).script = [.read (csrAddr .cap) 8] := by decide
theorem witness_RegisterAccesses : Csr.status ≠ .cmd ∧ Csr.status ≠ .ctrl ∧ regionOf 0x00000050#29 = 0 ∧
    0x50 ≤ (0x00000050#29 : PortAddr).toNat ∧ regionOf 0x07FFFFF8#29 = 0 := by decide
theorem witness_OnlyAlignedEightByteAccesses : (4 : Nat) ≠ 8 ∧ (0x0800001C#29 : PortAddr).toNat % 8 ≠ 0 := by decide
theorem witness_LittleEndianByteLanes : regionOf 0x18000008#29 ≠ 0 ∧
    (generated 1).portRead 0x18000008#29 8 = .value 1#64 := by decide +kernel
theorem witness_HostCannotWriteTables : regionOf 0x08000000#29 = 1 ∧ regionOf 0x17FFFFF8#29 = 2 ∧
    regionOf 0x18000000#29 = 3 := by decide
/-- A byte of memory that a step has given a value: the fourth clause, a generating command. -/
theorem witness_HostCannotWriteTables_stores :
    (after (.command .genrev) (derived 3)).map (fun t => t.mem.read (revAddr 1)) = some (some 4#8) := by decide +kernel
/-- A refused and an admitted operation. -/
theorem witness_AccessFaultCausesAndEffect : answer (.rdr 0) State.reset = some .accessFault ∧
    answer (.rdr 0) (generated 1) = some (.data 0#64) ∧ answer (.cmdw 0#64) State.reset = some .ack := by decide +kernel
theorem witness_ReadsHaveNoSideEffect :
    (nextOf (step (State.reset.setScript [.read 0x08#29 8, .read 0x08#29 8]))).map (fun t => (nextOf (step t)).isSome) =
      some true ∧
    answer (.rdcsr .exp) State.reset = some (.data 0#64) ∧
    (nextOf (step (State.reset.setScript [.write 0x20#29 8 5#64]))).isSome = true := by decide +kernel
/-- `CTRL` data with bit 0 set and clear, and the two operations that leave `FAULT`. -/
theorem witness_SoftReset : (1#64 : Reg).getLsbD 0 = true ∧ (2#64 : Reg).getLsbD 0 = false ∧
    (nextOf (hostStep .hardReset (State.reset.raise .invalidExponent 0#64))).map (fun t => t.runState) = some .idle ∧
    (nextOf (hostStep (ScriptLine.srst.expand) (State.reset.raise .invalidExponent 0#64))).map (fun t => t.runState) =
      some .idle := by decide +kernel
theorem witness_ResetValues : HostOp.resets .hardReset = true ∧ HostOp.resets (ScriptLine.srst.expand) = true ∧
    (nextOf (hostStep .hardReset (generated 1))).isSome = true ∧
    (nextOf (hostStep (ScriptLine.srst.expand) (generated 1))).isSome = true := by decide +kernel
theorem witness_BothResetsHaveOneEffect : (0xFFFFFFFFFFFFFFFF#64 : Reg).getLsbD 0 = true := by decide
theorem witness_WholeToolRunEnds : (derived 3).runState ≠ .fault ∧ (derived 3).cause = .none ∧
    (1 : Int) ≤ 12 ∧ (12 : Int) ≤ (derived 3).params.nmax ∧ (12 + 1 : Int) > (derived 3).params.nmax := by decide

/-- The memory after `GENALL 1`: three stores, the last of them last. -/
def memWin : Memory := Memory.storeElems [] (winAddr 0) (Machine.winTable (derived 0).params 2)
def memTw : Memory := Memory.storeElems memWin (twAddr 0 false) (Machine.twTable (derived 0).params 2 1)
def memRev : Memory := Memory.storeElems memTw (revAddr 0) (Machine.revTable 2 1)

theorem memRev_isSome (a : Nat) : (memRev.read a).isSome = true ↔ (winAddr 0 ≤ a ∧ a < winAddr 2) ∨
    (twAddr 0 false ≤ a ∧ a < twAddr 1 false) ∨ (revAddr 0 ≤ a ∧ a < revAddr 2) := by
  have step1 : ∀ {m : Memory} {base : Nat} {es : List Reg}, ((m.storeElems base es).read a).isSome = true ↔
      (base ≤ a ∧ a < base + 8 * es.length) ∨ (m.read a).isSome = true := by
    intro m base es
    by_cases h : base ≤ a ∧ a < base + 8 * es.length
    · simp [h, Memory.read_storeElems_isSome h.1 h.2]
    · rw [Memory.read_storeElems_out (by omega)]
      simp only [h, false_or]
  rw [memRev, step1, memTw, step1, memWin, step1]
  simp only [winTable_length, twTable_length, revTable_length, Memory.read_nil, winAddr, twAddr, revAddr]
  simp
  omega

/-- The state after `GENALL 1` meets the whole invariant, with all three tables valid: the hypothesis `Inv s`, and
`SpecInv s`, of the statements about the whole machine and about table reads. -/
theorem witness_Inv : Inv (generated 1) := by
  have hm : (generated 1).mem = memRev := rfl
  refine ⟨⟨by decide, by decide, by decide, by decide, by decide, fun _ => rfl, fun _ => by decide, fun _ => ?_, fun _ => ?_,
    fun _ => ?_⟩, by decide, ?_, fun a => ?_, fun h => by cases h⟩
  · decide +kernel
  · decide +kernel
  · decide +kernel
  · exact Memory.wf_storeElems (Memory.wf_storeElems (Memory.wf_storeElems Memory.wf_nil _ _) _ _) _ _
  · rw [hm, memRev_isSome]
    simp only [State.tableByte, show (generated 1).wv = true from rfl, show (generated 1).tv = true from rfl,
      show (generated 1).rv = true from rfl, show (generated 1).lVal = 2 from rfl, show (generated 1).mVal = 1 from rfl,
      true_and]

/-- A step from a state that meets the invariant, that keeps the exponent and the flags. -/
theorem witness_ValidTablesDoNotChange : Inv ((generated 1).setScript [cmdWrite 0x02000000#64]) ∧
    (nextOf (step ((generated 1).setScript [cmdWrite 0x02000000#64]))).map (fun t => (t.regN, t.wv, t.tv, t.rv)) =
      some (1#64, true, true, true) := by
  refine ⟨?_, by decide +kernel⟩
  have h := witness_Inv
  exact ⟨⟨h.params, h.exponent, h.lengthL, h.lengthM, h.faulted, h.finfoClear, h.winExp, h.winTable, h.twTable, h.revTable⟩,
    h.noIoFault, h.memWf, h.memExact, fun hr => by cases hr⟩

theorem witness_SamplersAgreeWithTables : SpecInv (generated 1) ∧ (generated 1).wv = true ∧ 1 < (generated 1).lVal ∧
    (generated 1).tv = true ∧ 0 < (generated 1).mVal ∧ (generated 1).rv = true :=
  ⟨witness_Inv.toSpecInv, by decide, by decide, by decide, by decide, by decide⟩

/-- The block after `DERIVE 0` meets the invariants of the spec, with `L = 1`. -/
theorem witness_WindowUndefinedFaults_inv : SpecInv (derived 0) ∧ (derived 0).lVal ≤ 1 :=
  ⟨⟨by decide, by decide, by decide, by decide, by decide, fun _ => rfl, by decide, fun h => Bool.noConfusion h,
    fun h => Bool.noConfusion h, fun h => Bool.noConfusion h⟩, by decide⟩
theorem witness_TableReads : SpecInv (generated 1) := witness_Inv.toSpecInv
theorem witness_SpecInvariantsKept : SpecInv (generated 1) ∧ step (generated 1) = .next (generated 1) :=
  ⟨witness_Inv.toSpecInv, rfl⟩
theorem witness_StepKeepsInvariants : Inv (generated 1) ∧ step (generated 1) = .next (generated 1) := ⟨witness_Inv, rfl⟩
theorem witness_EveryStepHasANextState : SpecInv (generated 1) := witness_Inv.toSpecInv
theorem witness_GenallAllOrNothing : (generated 1).params.wf = true := by decide
/-- Every format at the ends of its range. -/
theorem witness_DecodeEncodeRoundTrip : (Instr.derive (-8388608)).wf = true ∧ (Instr.genall 8388607).wf = true ∧
    Instr.genwin.wf = true ∧ (Instr.bitrev 16777215).wf = true := by decide
theorem witness_ReverseBitsPermutation : 5 < 2 ^ 3 ∧ reverseBits 5 3 = 5 ∧ reverseBits 6 3 = 3 := by decide

/-! ### Witnesses about real numbers -/

/-- A tie, and a value near an integer. -/
theorem witness_QuantiserRoundsToNearestEven : |(15 / 100000000000 : ℝ) * SCALE - (2 : Int)| = 1 / 2 ∧
    |(11 / 100000000000 : ℝ) * SCALE - (1 : Int)| < 1 / 2 ∧ 0 < 100000000000 := by
  have h : (SCALE : ℝ) = 10000000000 := by norm_num [SCALE]
  refine ⟨?_, ?_, by norm_num⟩ <;> rw [h]
  · rw [show (15 / 100000000000 : ℝ) * 10000000000 - (2 : Int) = -(1 / 2) by norm_num, abs_neg]; norm_num
  · rw [show (11 / 100000000000 : ℝ) * 10000000000 - (1 : Int) = 1 / 10 by norm_num]; norm_num

theorem refTwre_two (k : Nat) : refTwre 2 k = if k % 2 = 0 then 10000000000 else -10000000000 := by
  rw [← refTwre_mod]
  rcases Nat.mod_two_eq_zero_or_one k with h | h <;> rw [h] <;> decide +kernel

theorem refTwim_two (k : Nat) : refTwim 2 k = 0 := by
  rw [← refTwim_mod]
  rcases Nat.mod_two_eq_zero_or_one k with h | h <;> rw [h] <;> decide +kernel

theorem refWin_two_zero : refWin 2 0 = 600000 := by decide +kernel

theorem refWin_two (i : Nat) : refWin 2 i = 600000 := by
  rw [← refWin_two_zero]
  simp only [refWin, winFix]
  congr 1
  funext p
  rw [← cosTurn_mod p i, ← cosTurn_mod p (2 * i), ← cosTurn_mod p (3 * i), ← cosTurn_mod p 0]
  simp only [show 2 - 1 = 1 from rfl, Nat.mod_one]

theorem wExact_two (i : Nat) : wExact 2 i = 0.00006 := by
  have h1 : Real.cos (2 * Real.pi * i / ((2 : ℕ) - 1 : ℝ)) = 1 := by
    rw [show 2 * Real.pi * i / ((2 : ℕ) - 1 : ℝ) = (i : ℕ) * (2 * Real.pi) by push_cast; ring, Real.cos_nat_mul_two_pi]
  have h2 : Real.cos (4 * Real.pi * i / ((2 : ℕ) - 1 : ℝ)) = 1 := by
    rw [show 4 * Real.pi * i / ((2 : ℕ) - 1 : ℝ) = (2 * i : ℕ) * (2 * Real.pi) by push_cast; ring,
      Real.cos_nat_mul_two_pi]
  have h3 : Real.cos (6 * Real.pi * i / ((2 : ℕ) - 1 : ℝ)) = 1 := by
    rw [show 6 * Real.pi * i / ((2 : ℕ) - 1 : ℝ) = (3 * i : ℕ) * (2 * Real.pi) by push_cast; ring,
      Real.cos_nat_mul_two_pi]
  rw [wExact, h1, h2, h3]; norm_num

/-- The reference instance, and the least lengths the clauses speak of. -/
theorem witness_ReferenceIsTheRoundedIdealValue : State.reset.params.numDev = [] ∧ 2 ≤ (derived 1).lVal ∧
    1 ≤ (derived 0).lVal := by decide

/-- An implementation with `NMAX = 1` and the reference instance satisfies `NumOK(1/2)`: the hypothesis of
`ToleranceProperties` and `ElementsFitTheirCells`. -/
theorem witness_NumOK : NumOK ⟨1, []⟩ (1 / 2) ∧ (Config.Params.mk 1 []).wf = true := by
  refine ⟨⟨by norm_num, by norm_num, fun N idx hN _ => ?_⟩, by decide⟩
  have hd : ∀ f L i, numDelta ⟨1, []⟩ f L i = 0 := fun _ _ _ => rfl
  have hs : (SCALE : ℝ) = 10000000000 := by norm_num [SCALE]
  have r1 : ∀ k, refTwre 1 k = 10000000000 := fun k => by
    rw [← refTwre_mod, Nat.mod_one]; decide +kernel
  have i1 : ∀ k, refTwim 1 k = 0 := fun k => by
    rw [← refTwim_mod, Nat.mod_one]; decide +kernel
  simp only [numWin, numTwre, numTwim, hd, add_zero]
  have hN' : N = 0 ∨ N = 1 := by simp at hN; omega
  rcases hN' with rfl | rfl
  · refine ⟨fun h => by simp at h, ?_, ?_⟩
    · rw [pow_zero, r1, twReExact,
        show 2 * Real.pi * idx / ((1 : ℕ) : ℝ) = (idx : ℕ) * (2 * Real.pi) by push_cast; ring, Real.cos_nat_mul_two_pi, hs]
      norm_num
    · rw [pow_zero, i1, twImExact,
        show 2 * Real.pi * idx / ((1 : ℕ) : ℝ) = ((2 * idx : ℕ) : ℝ) * Real.pi by push_cast; ring, Real.sin_nat_mul_pi, hs]
      norm_num
  · refine ⟨fun _ => ?_, ?_, ?_⟩
    · rw [pow_one, refWin_two, wExact_two, hs]; norm_num
    · rw [pow_one, refTwre_two, twReExact,
        show 2 * Real.pi * idx / ((2 : ℕ) : ℝ) = (idx : ℕ) * Real.pi by push_cast; ring, Real.cos_nat_mul_pi, hs]
      rcases Nat.mod_two_eq_zero_or_one idx with h | h
      · rw [if_pos h, (Nat.even_iff.mpr h).neg_one_pow]; norm_num
      · rw [if_neg (by omega), (Nat.odd_iff.mpr h).neg_one_pow]; norm_num
    · rw [pow_one, refTwim_two, twImExact,
        show 2 * Real.pi * idx / ((2 : ℕ) : ℝ) = (idx : ℕ) * Real.pi by push_cast; ring, Real.sin_nat_mul_pi, hs]
      norm_num

/-- The least lengths the clauses about the window and about the twiddle speak of. -/
theorem witness_FixedPointIsWithinBound : 64 ≤ 64 ∧ 64 ≤ exactBits 1 ∧ 2 ≤ (derived 1).lVal ∧ 1 ≤ (derived 0).lVal := by
  decide
theorem witness_ToleranceProperties : NumOK ⟨1, []⟩ (1 / 2) ∧ (Config.Params.mk 1 []).wf = true ∧ (1 : Nat) ≤ 1 ∧
    (2 ^ 1 - 1 : Nat) < 2 ^ 24 := ⟨witness_NumOK.1, witness_NumOK.2, by decide, by decide⟩
theorem witness_ElementsFitTheirCells : NumOK ⟨1, []⟩ (1 / 2) ∧ (1 : Nat) ≤ (Config.Params.mk 1 []).nmax ∧
    (16777215 : Nat) < 2 ^ 24 := ⟨witness_NumOK.1, by decide, by decide⟩
/-- `L = 4` (a third of `D`), `L = 8` (an eighth of a turn). -/
theorem witness_ReferenceSpecialValues : refWin (3 * 1 + 1) 1 = 5205750000 ∧ refTwim (4 * 1) 1 = 10000000000 ∧
    refTwre (8 * 1) (3 * 1) = -7071067812 := by decide +kernel
theorem witness_ReferenceSymmetries : 3 ≤ 8 - 1 ∧ refWin 8 (8 - 1 - 3) = refWin 8 3 ∧ 1 < 4 ∧
    refTwre (2 * 4) (4 - 1) = -refTwre (2 * 4) 1 := by decide +kernel
theorem witness_ReferenceSatisfiesNumOK : State.reset.params.numDev = [] ∧ (1 : ℝ) / 2 ≤ 1 / 2 ∧ (1 : ℝ) / 2 ≤ 3 :=
  ⟨rfl, le_rfl, by norm_num⟩

end Sys2Proof.Tests
end

section
/-! SUPPORT and PROOFS for spec/10_state.md: what each command and each host operation does, as equations and case
lemmas; the invariants of R51, rule by rule over the named updates; and the statements about state, reset and results. -/

namespace Sys2Proof.Machine

/-! ### Filling one table: the cells are stored and the flag is set -/

/-- The window table of the current lengths, stored and valid (spec/42_window.md R151). -/
def State.fillWin (s : State) : State := (s.storeWin (winTable s.params s.lVal)).validateWin

/-- The twiddle table of the current lengths, stored and valid (spec/43_twiddle.md R161). -/
def State.fillTw (s : State) : State := (s.storeTw (twTable s.params s.lVal s.mVal)).validateTw

/-- The bit-reversal table of the current lengths, stored and valid (spec/44_bit_reversal.md R171). -/
def State.fillRev (s : State) : State := (s.storeRev (revTable s.lVal s.nVal)).validateRev

section Fill
variable (s : State)

theorem State.fillWin_winElem {i : Nat} (hi : i < s.lVal) :
    s.fillWin.winElem i = some (tc64 (numWin s.params s.lVal i)) :=
  s.storeWin_winElem (winTable_getElem? s.params hi)

theorem State.fillWin_twElem (hL : s.lVal ≤ 2 ^ 24) (k : Nat) (im : Bool) : s.fillWin.twElem k im = s.twElem k im :=
  s.storeWin_twElem (by simpa using hL) k im

theorem State.fillWin_revElem (hL : s.lVal ≤ 2 ^ 24) (i : Nat) : s.fillWin.revElem i = s.revElem i :=
  s.storeWin_revElem (by simpa using hL) i

theorem State.fillTw_winElem {i : Nat} (hi : i < 2 ^ 24) : s.fillTw.winElem i = s.winElem i :=
  s.storeTw_winElem hi

theorem State.fillTw_twElem {k : Nat} (hk : k < s.mVal) :
    s.fillTw.twElem k false = some (tc64 (numTwre s.params s.lVal k)) ∧
      s.fillTw.twElem k true = some (tc64 (numTwim s.params s.lVal k)) :=
  have ⟨hre, him⟩ := twTable_getElem? s.params s.lVal hk
  ⟨s.storeTw_twElem_re hre, s.storeTw_twElem_im him⟩

theorem State.fillTw_revElem (hM : s.mVal ≤ 2 ^ 23) (i : Nat) : s.fillTw.revElem i = s.revElem i :=
  s.storeTw_revElem (by rw [twTable_length]; omega) i

theorem State.fillRev_winElem {i : Nat} (hi : i < 2 ^ 24) : s.fillRev.winElem i = s.winElem i :=
  s.storeRev_winElem hi

theorem State.fillRev_twElem {k : Nat} (hk : k < 2 ^ 23) (im : Bool) : s.fillRev.twElem k im = s.twElem k im :=
  s.storeRev_twElem hk im

theorem State.fillRev_revElem {i : Nat} (hi : i < s.lVal) :
    s.fillRev.revElem i = some (BitVec.ofNat 64 (reverseBits i s.nVal)) :=
  s.storeRev_revElem (revTable_getElem? s.nVal hi)

/-- The three tables of exponent `n`, stored at once and then made valid, are the three fills one after another, once
the registers hold the lengths of `n` (spec/45_generate_all.md R187). -/
theorem State.storeAll_eq_fills {n : Nat} (hN : s.nVal = n) (hL : s.lVal = inputLength n) (hM : s.mVal = outputLength n) :
    (s.storeAll n).validateWin.validateTw.validateRev = s.fillWin.fillTw.fillRev := by
  rw [State.storeAll_eq, ← hL, ← hM, ← hN]
  rfl

end Fill

/-! ### What each command does -/

section Commands
variable {s t : State} {n : Int} {idx : Nat}

theorem exec_derive_cases (h : exec (.derive n) s = .next t) :
    ((n < 0 ∨ (s.params.nmax : Int) < n) ∧ t = s.raise .invalidExponent (cmdValue (.derive n))) ∨
      (0 ≤ n ∧ n ≤ s.params.nmax ∧ t = (s.deriveSizes n.toNat).complete) := by
  simp only [exec, execDerive, deriveRejects_iff] at h
  split at h <;> cases h
  · exact .inl ⟨‹_›, rfl⟩
  · exact .inr ⟨by omega, by omega, rfl⟩

theorem exec_genall_cases (h : exec (.genall n) s = .next t) :
    ((n < 1 ∨ (s.params.nmax : Int) < n) ∧ t = s.raise .invalidExponent (cmdValue (.genall n))) ∨
      (1 ≤ n ∧ n ≤ s.params.nmax ∧
        t = ((s.deriveSizes n.toNat).storeAll n.toNat).validateWin.validateTw.validateRev.complete) := by
  simp only [exec, execGenall, genallRejects_iff] at h
  split at h <;> cases h
  · exact .inl ⟨‹_›, rfl⟩
  · exact .inr ⟨by omega, by omega, rfl⟩

theorem exec_genwin_cases (h : exec .genwin s = .next t) :
    (s.lVal ≤ 1 ∧ t = s.raise .invalidExponent (cmdValue .genwin)) ∨ (2 ≤ s.lVal ∧ t = s.fillWin.complete) := by
  simp only [exec, execGenwin, windowUndefined_iff] at h
  split at h <;> cases h
  · exact .inl ⟨‹_›, rfl⟩
  · exact .inr ⟨by omega, rfl⟩

theorem exec_wsamp_cases (h : exec (.wsamp idx) s = .next t) :
    (s.lVal ≤ 1 ∧ t = s.raise .invalidExponent (cmdValue (.wsamp idx))) ∨
      (2 ≤ s.lVal ∧ t = (s.setResults (tc64 (numWin s.params s.lVal idx)) 0#64).complete) := by
  simp only [exec, execWsamp, windowUndefined_iff] at h
  split at h <;> cases h
  · exact .inl ⟨‹_›, rfl⟩
  · exact .inr ⟨by omega, rfl⟩

theorem exec_gentw (s : State) : exec .gentw s = .next s.fillTw.complete := rfl

theorem exec_genrev (s : State) : exec .genrev s = .next s.fillRev.complete := rfl

theorem exec_twsamp (idx : Nat) (s : State) : exec (.twsamp idx) s = .next
    (s.setResults (tc64 (numTwre s.params s.lVal idx)) (tc64 (numTwim s.params s.lVal idx))).complete := rfl

theorem exec_bitrev (idx : Nat) (s : State) :
    exec (.bitrev idx) s = .next (s.setResults (BitVec.ofNat 64 (reverseBits idx s.nVal)) 0#64).complete := rfl

end Commands

/-! ### What each host operation does -/

theorem portRead_csrAddr (c : Csr) (s : State) : s.portRead (csrAddr c) 8 = .value (s.csrValue c) := by
  simp [State.portRead, shapeOk_csrAddr, regionOf_csrAddr, offsetOf_csrAddr, State.readCsr, csrAt_eq_some.mpr rfl]

theorem portWrite_csrAddr_cmd (v : Reg) (s : State) : portWrite (csrAddr .cmd) 8 v s = writeCmd v s := rfl

theorem portWrite_csrAddr_ctrl (v : Reg) (s : State) : portWrite (csrAddr .ctrl) 8 v s = writeCtrl v s := rfl

/-- The only access of an admitted shape to a register's offset of region 0 is 8 bytes at the register's address. -/
theorem eq_csrAddr_of_csrAt {addr : PortAddr} {width : Nat} {c : Csr} (hs : shapeOk addr width = true)
    (hr : regionOf addr = 0) (hc : csrAt (offsetOf addr) = some c) : addr = csrAddr c ∧ width = 8 := by
  refine ⟨BitVec.eq_of_toNat_eq ?_, (shapeOk_iff.mp hs).1⟩
  have hoff : c.offset = offsetOf addr := csrAt_eq_some.mp hc
  rw [csrAddr_toNat, hoff, offsetOf]
  rw [regionOf] at hr
  omega

/-- A write reaches `CMD`, reaches `CTRL`, or is refused (spec/20_memory.md R66, R67, R69). -/
theorem portWrite_target (addr : PortAddr) (width : Nat) (v : Reg) (s : State) :
    (addr = csrAddr .cmd ∧ width = 8) ∨ (addr = csrAddr .ctrl ∧ width = 8) ∨
      portWrite addr width v s = .next (s.respond .accessFault) := by
  unfold portWrite
  split
  · exact .inr (.inr rfl)
  · rename_i hok
    obtain ⟨hs, hr⟩ : shapeOk addr width = true ∧ regionOf addr = 0 := by simpa using hok
    split
    · exact .inl (eq_csrAddr_of_csrAt hs hr ‹_›)
    · exact .inr (.inl (eq_csrAddr_of_csrAt hs hr ‹_›))
    · exact .inr (.inr rfl)

theorem hostStep_ctrl_of_set {v : Reg} (hv : v.getLsbD 0 = true) (s : State) :
    hostStep (.write (csrAddr .ctrl) 8 v) s = .next (s.toReset.respond .ack) :=
  (portWrite_csrAddr_ctrl v s).trans (if_pos hv)

theorem hostStep_ctrl_of_clear {v : Reg} (hv : v.getLsbD 0 = false) (s : State) :
    hostStep (.write (csrAddr .ctrl) 8 v) s = .next (s.respond .ack) :=
  (portWrite_csrAddr_ctrl v s).trans (if_neg (Bool.eq_false_iff.mp hv))

/-- The resets are the hardware reset and the writes to `CTRL` with bit 0 set (spec/60_exceptions.md R213). -/
theorem HostOp.resets_iff {op : HostOp} : op.resets = true ↔
    op = .hardReset ∨ ∃ w : Reg, w.getLsbD 0 = true ∧ op = .write (csrAddr .ctrl) 8 w := by
  cases op with
  | read addr width => simp [HostOp.resets]
  | write addr width v => simp [HostOp.resets]; tauto
  | hardReset => simp [HostOp.resets]

/-- A reset puts the block at its reset state and changes nothing else but the answer. -/
theorem hostStep_of_resets {op : HostOp} (hop : op.resets = true) (s : State) :
    ∃ r, hostStep op s = .next (s.toReset.respond r) := by
  rcases HostOp.resets_iff.mp hop with rfl | ⟨w, hw, rfl⟩
  · exact ⟨.none, rfl⟩
  · exact ⟨.ack, hostStep_ctrl_of_set hw s⟩

/-- Every other operation only answers, or is a command taken outside `FAULT`. -/
theorem hostStep_cases_of_not_resets {op : HostOp} {s t : State} (hop : op.resets = false)
    (h : hostStep op s = .next t) : (∃ r, t = s.respond r) ∨
      ∃ v u, op = cmdWrite v ∧ s.runState ≠ .fault ∧ engine v s = .next u ∧ t = u.respond .ack := by
  cases op with
  | read addr width =>
    rcases answerRead_cases h with ⟨v, -, rfl⟩ | ⟨-, rfl⟩
    · exact .inl ⟨_, rfl⟩
    · exact .inl ⟨_, rfl⟩
  | write addr width v =>
    rcases portWrite_target addr width v s with ⟨rfl, rfl⟩ | ⟨rfl, rfl⟩ | href
    · rcases writeCmd_cases ((portWrite_csrAddr_cmd v s).symm.trans h) with ⟨-, rfl⟩ | ⟨hf, u, hu, rfl⟩
      · exact .inl ⟨_, rfl⟩
      · exact .inr ⟨v, u, rfl, hf, hu, rfl⟩
    · have hv : v.getLsbD 0 = false := by simpa [HostOp.resets] using hop
      cases (hostStep_ctrl_of_clear hv s).symm.trans h
      exact .inl ⟨_, rfl⟩
    · cases href.symm.trans h
      exact .inl ⟨_, rfl⟩
  | hardReset => cases hop

/-- `FAULT` is left only by a reset (spec/60_exceptions.md R212, R213). -/
theorem hostStep_fault_kept {op : HostOp} {s t : State} (hf : s.runState = .fault) (hop : op.resets = false)
    (h : hostStep op s = .next t) : t.runState = .fault := by
  rcases hostStep_cases_of_not_resets hop h with ⟨r, rfl⟩ | ⟨_, _, _, hnf, _, _⟩
  · exact hf
  · exact absurd hf hnf

/-! ### The invariants of R51 over the named updates -/

section Invariant
variable {s t : State}

theorem SpecInv.nmax_le (h : SpecInv s) : s.params.nmax ≤ 24 := (params_wf_iff.mp h.params).2

theorem SpecInv.lVal_le (h : SpecInv s) : s.lVal ≤ 2 ^ 24 := by
  rw [h.lengthL]
  exact Nat.pow_le_pow_right (by decide) (h.exponent.trans h.nmax_le)

theorem SpecInv.mVal_le (h : SpecInv s) : s.mVal ≤ 2 ^ 23 := by
  have := h.lVal_le
  rw [h.lengthM, Nat.shiftRight_one]
  omega

theorem SpecInv.respond (h : SpecInv s) (r : PortResp) : SpecInv (s.respond r) :=
  { h with }

theorem SpecInv.setScript (h : SpecInv s) (ops : List HostOp) : SpecInv (s.setScript ops) :=
  { h with }

theorem SpecInv.setResults (h : SpecInv s) (r0 r1 : Reg) : SpecInv (s.setResults r0 r1) :=
  { h with }

theorem SpecInv.raise (h : SpecInv s) {c : Cause} (hc : c ≠ .none) (v : Reg) : SpecInv (s.raise c v) :=
  { h with
    faulted := by simpa using hc
    finfoClear := fun hf => absurd (s.raise_runState c v) hf }

/-- Outside `FAULT` the fault record is clear, so completing a command keeps (d) of R51. -/
theorem SpecInv.complete (h : SpecInv s) (hf : s.runState ≠ .fault) : SpecInv s.complete :=
  { h with
    faulted := by simpa [hf] using h.faulted
    finfoClear := fun _ => h.finfoClear hf }

theorem SpecInv.toReset (hp : s.params.wf = true) : SpecInv s.toReset :=
  { params := hp, exponent := Nat.zero_le _, lengthL := rfl, lengthM := by simp
    faulted := by simp
    finfoClear := fun _ => rfl
    winExp := by simp, winTable := by simp, twTable := by simp, revTable := by simp }

/-- An accepted exponent and its lengths fit their registers, so the registers read back as the lengths (R24). -/
theorem deriveSizes_sizes (s : State) {n : Nat} (hn : n ≤ 24) :
    (s.deriveSizes n).nVal = n ∧ (s.deriveSizes n).lVal = inputLength n ∧ (s.deriveSizes n).mVal = outputLength n := by
  have hL : 2 ^ n ≤ 2 ^ 24 := Nat.pow_le_pow_right (by decide) hn
  simp only [State.deriveSizes_nVal, State.deriveSizes_lVal, State.deriveSizes_mVal, inputLength_eq, outputLength_eq,
    BitVec.toNat_ofNat]
  generalize 2 ^ n = L at hL ⊢
  omega

theorem SpecInv.deriveSizes (h : SpecInv s) {n : Nat} (hn : n ≤ s.params.nmax) : SpecInv (s.deriveSizes n) := by
  obtain ⟨hN, hL, hM⟩ := deriveSizes_sizes s (hn.trans h.nmax_le)
  exact
    { h with
      exponent := hN.trans_le hn
      lengthL := by rw [hL, hN, inputLength_eq]
      lengthM := by rw [hM, hL, outputLength]
      winExp := by simp, winTable := by simp, twTable := by simp, revTable := by simp }

theorem SpecInv.fillWin (h : SpecInv s) (hL : 2 ≤ s.lVal) : SpecInv s.fillWin :=
  { h with
    winExp := fun _ => by
      change 1 ≤ s.nVal
      by_contra h0
      have hl := h.lengthL
      rw [Nat.lt_one_iff.mp (not_le.mp h0)] at hl
      omega
    winTable := fun _ _ hi => s.fillWin_winElem hi
    twTable := fun hv k hk => by
      rw [s.fillWin_twElem h.lVal_le, s.fillWin_twElem h.lVal_le]
      exact h.twTable hv k hk
    revTable := fun hv i hi => (s.fillWin_revElem h.lVal_le i).trans (h.revTable hv i hi) }

theorem SpecInv.fillTw (h : SpecInv s) : SpecInv s.fillTw :=
  { h with
    winTable := fun hv i hi => (s.fillTw_winElem (lt_of_lt_of_le hi h.lVal_le)).trans (h.winTable hv i hi)
    twTable := fun _ _ hk => s.fillTw_twElem hk
    revTable := fun hv i hi => (s.fillTw_revElem h.mVal_le i).trans (h.revTable hv i hi) }

theorem SpecInv.fillRev (h : SpecInv s) : SpecInv s.fillRev :=
  { h with
    winTable := fun hv i hi => (s.fillRev_winElem (lt_of_lt_of_le hi h.lVal_le)).trans (h.winTable hv i hi)
    twTable := fun hv k hk => by
      have hk' : k < 2 ^ 23 := lt_of_lt_of_le hk h.mVal_le
      rw [s.fillRev_twElem hk', s.fillRev_twElem hk']
      exact h.twTable hv k hk
    revTable := fun _ _ hi => s.fillRev_revElem hi }

/-- The three tables of an accepted exponent `n >= 1`, made right after its lengths (spec/45_generate_all.md R186). -/
theorem SpecInv.deriveSizes_storeAll (h : SpecInv s) {n : Nat} (h1 : 1 ≤ n) (hn : n ≤ s.params.nmax) :
    SpecInv ((s.deriveSizes n).storeAll n).validateWin.validateTw.validateRev := by
  obtain ⟨hN, hL, hM⟩ := deriveSizes_sizes s (hn.trans h.nmax_le)
  have hL2 : 2 ≤ (s.deriveSizes n).lVal := by
    rw [hL, inputLength_eq]
    exact Nat.le_self_pow (by omega) 2
  rw [State.storeAll_eq_fills _ hN hL hM]
  exact ((h.deriveSizes hn).fillWin hL2).fillTw.fillRev

/-! ### Every command, host operation and step keeps the invariants -/

/-- A command ends in a fault entry, or in the completion of one of the updates above. -/
theorem SpecInv.of_exec {i : Instr} (h : SpecInv s) (hf : s.runState ≠ .fault) (hx : exec i s = .next t) :
    SpecInv t := by
  have hraise (v : Reg) : SpecInv (s.raise .invalidExponent v) := h.raise (by decide) v
  cases i with
  | derive n =>
    rcases exec_derive_cases hx with ⟨-, rfl⟩ | ⟨h0, hn, rfl⟩
    · exact hraise _
    · exact (h.deriveSizes (by omega)).complete hf
  | genwin =>
    rcases exec_genwin_cases hx with ⟨-, rfl⟩ | ⟨hL, rfl⟩
    · exact hraise _
    · exact (h.fillWin hL).complete hf
  | gentw =>
    cases (exec_gentw s).symm.trans hx
    exact h.fillTw.complete hf
  | genrev =>
    cases (exec_genrev s).symm.trans hx
    exact h.fillRev.complete hf
  | genall n =>
    rcases exec_genall_cases hx with ⟨-, rfl⟩ | ⟨h1, hn, rfl⟩
    · exact hraise _
    · exact (h.deriveSizes_storeAll (by omega) (by omega)).complete hf
  | wsamp idx =>
    rcases exec_wsamp_cases hx with ⟨-, rfl⟩ | ⟨-, rfl⟩
    · exact hraise _
    · exact (h.setResults _ _).complete hf
  | twsamp idx =>
    cases (exec_twsamp idx s).symm.trans hx
    exact (h.setResults _ _).complete hf
  | bitrev idx =>
    cases (exec_bitrev idx s).symm.trans hx
    exact (h.setResults _ _).complete hf

theorem SpecInv.of_engine {v : Reg} (h : SpecInv s) (hf : s.runState ≠ .fault) (hx : engine v s = .next t) :
    SpecInv t := by
  rcases engine_cases hx with ⟨i, -, hi⟩ | ⟨why, -, rfl⟩
  · exact h.of_exec hf hi
  · exact h.raise (by decide) v

theorem SpecInv.of_hostStep {op : HostOp} (h : SpecInv s) (hx : hostStep op s = .next t) : SpecInv t := by
  rcases hostStep_cases hx with ⟨r, rfl⟩ | ⟨r, rfl⟩ | ⟨v, u, -, hf, hu, rfl⟩
  · exact h.respond r
  · exact (SpecInv.toReset h.params).respond r
  · exact (h.of_engine hf hu).respond .ack

theorem SpecInv.of_step (h : SpecInv s) (hx : step s = .next t) : SpecInv t := by
  cases hs : s.script with
  | nil =>
    cases (step_idle hs).symm.trans hx
    exact h
  | cons op ops => exact (h.setScript ops).of_hostStep ((step_cons hs).symm.trans hx)

theorem specInv_reset : SpecInv State.reset := SpecInv.toReset (s := State.reset) (by decide)

/-- A step from `FAULT` stays in `FAULT`, unless the host's operation is a reset. -/
theorem step_fault_kept (hf : s.runState = .fault) (hx : step s = .next t) :
    t.runState = .fault ∨ ∃ op ops, s.script = op :: ops ∧ op.resets = true := by
  cases hs : s.script with
  | nil =>
    cases (step_idle hs).symm.trans hx
    exact .inl hf
  | cons op ops =>
    cases hop : op.resets with
    | false => exact .inl (hostStep_fault_kept (s := s.setScript ops) hf hop ((step_cons hs).symm.trans hx))
    | true => exact .inr ⟨op, ops, rfl, hop⟩

end Invariant

/-! ### The statements -/

/-- Settles O31: reset meets R51, every named update keeps it, and a step is a composition of named updates. -/
theorem specInvariantsKept : Obligations.SpecInvariantsKept := by
  unfold Obligations.SpecInvariantsKept
  exact ⟨specInv_reset, fun _ _ h hx => ⟨h.of_step hx, fun hf => step_fault_kept hf hx⟩⟩

/-- Settles O49: both resets give the reset state, and an operation that leaves `FAULT` is one of them. -/
theorem softReset : Obligations.SoftReset := by
  unfold Obligations.SoftReset
  intro s v
  refine ⟨fun hv => hostStep_ctrl_of_set hv s, fun hv => hostStep_ctrl_of_clear hv s, ?_, rfl, fun op t hf h hnf => ?_⟩
  · rw [hostStep, portRead_csrAddr]
    rfl
  · refine HostOp.resets_iff.mp (Bool.of_not_eq_false fun hop => ?_)
    exact hnf (hostStep_fault_kept hf hop h)

/-- Settles O26: `DERIVE` forgets the old tables, and the new ones are computed from `n` and the parameters. -/
theorem generationDependsOnExponentOnly : Obligations.GenerationDependsOnExponentOnly := by
  unfold Obligations.GenerationDependsOnExponentOnly
  intro n s s' t t' hp h1 hn ht ht'
  rcases exec_genall_cases ht with ⟨hrej, -⟩ | ⟨-, -, rfl⟩
  · omega
  rcases exec_genall_cases ht' with ⟨hrej, -⟩ | ⟨-, -, rfl⟩
  · rw [← hp] at hrej
    omega
  · simp [State.storeAll_eq, hp]

/-- Settles O29: a reset gives `toReset` with some answer, whose fields are the reset values. -/
theorem resetValues : Obligations.ResetValues := by
  unfold Obligations.ResetValues
  refine ⟨fun s t op hop h => ?_, rfl⟩
  obtain ⟨r, hr⟩ := hostStep_of_resets hop s
  cases hr.symm.trans h
  refine ⟨rfl, rfl, rfl, rfl, rfl, rfl, rfl, rfl, rfl, rfl, rfl, rfl, Memory.read_nil, rfl, rfl, ?_⟩
  -- The lengths of exponent 0 are the reset values, so the completed `DERIVE 0` differs from reset in `STATE` only.
  obtain ⟨t, ht⟩ := exec_next (.derive 0) (s.toReset.respond r)
  rcases exec_derive_cases ht with ⟨hrej, -⟩ | ⟨-, -, rfl⟩
  · omega
  · exact ht

/-- Settles O35: a fault entry leaves the results alone, and of the commands that complete only the three samplers
write them. -/
theorem resultRegisters : Obligations.ResultRegisters := by
  unfold Obligations.ResultRegisters
  intro i s t _ hx
  cases i with
  | derive n => rcases exec_derive_cases hx with ⟨-, rfl⟩ | ⟨-, -, rfl⟩ <;> simp
  | genwin => rcases exec_genwin_cases hx with ⟨-, rfl⟩ | ⟨-, rfl⟩ <;> simp [State.fillWin]
  | gentw => cases (exec_gentw s).symm.trans hx; simp [State.fillTw]
  | genrev => cases (exec_genrev s).symm.trans hx; simp [State.fillRev]
  | genall n => rcases exec_genall_cases hx with ⟨-, rfl⟩ | ⟨-, -, rfl⟩ <;> simp [State.storeAll_eq]
  | wsamp idx => rcases exec_wsamp_cases hx with ⟨-, rfl⟩ | ⟨-, rfl⟩ <;> simp
  | twsamp idx => cases (exec_twsamp idx s).symm.trans hx; simp
  | bitrev idx => cases (exec_bitrev idx s).symm.trans hx; simp

end Sys2Proof.Machine
end

section
/-! SUPPORT and PROOFS for spec/20_memory.md: which accesses the port refuses, what a refused access, a read and a write
leave as they are, and which commands give a table byte a value; and the statements about the port. -/

namespace Sys2Proof.Machine

section Access
variable {s t : State} {addr : PortAddr} {width off : Nat} {v : Reg} {op : HostOp}

/-! ### Registers and offsets of region 0 -/

theorem csrAt_eq_none : csrAt off = none ↔ ∀ c : Csr, off ≠ c.offset := by
  rw [Option.eq_none_iff_forall_ne_some]
  exact forall_congr' fun c => not_congr (csrAt_eq_some.trans eq_comm)

theorem Csr.offset_injective : Function.Injective Csr.offset := fun _ _ h =>
  Option.some.inj ((csrAt_eq_some.mpr rfl).symm.trans (csrAt_eq_some.mpr h.symm))

theorem Csr.offset_lt (c : Csr) : c.offset < 0x50 := by cases c <;> decide

/-- Region 0 lists no register from 0x50 on (spec/10_state.md R40). -/
theorem offsetOf_ne_of_le (hr : regionOf addr = 0) (h : 0x50 ≤ addr.toNat) (c : Csr) : offsetOf addr ≠ c.offset := by
  have hc := c.offset_lt
  simp only [regionOf] at hr
  simp only [offsetOf]
  omega

theorem regionOf_lt (addr : PortAddr) : regionOf addr < 4 := by
  simp only [regionOf]
  omega

/-! ### Which reads are refused (spec/20_memory.md R70 (a) to (d)) -/

@[simp] theorem ReadResult.ofCell_ne_accessFault (o : Option Reg) : ReadResult.ofCell o ≠ .accessFault := by
  cases o <;> nofun

theorem readCsr_eq_accessFault : s.readCsr off = .accessFault ↔ ∀ c : Csr, off ≠ c.offset := by
  rw [← csrAt_eq_none, State.readCsr]
  cases csrAt off <;> simp

/-- A table read is refused by its guard alone: an admitted one never answers `AccessFault`. -/
theorem guardedCell_eq_accessFault {p : Prop} [Decidable p] {o : Option Reg} :
    (if p then ReadResult.accessFault else .ofCell o) = .accessFault ↔ p := by
  split <;> simp [*]

theorem readWin_eq_accessFault {i : Nat} : s.readWin i = .accessFault ↔ s.wv = false ∨ s.lVal ≤ i :=
  guardedCell_eq_accessFault

theorem readTw_eq_accessFault {k : Nat} {im : Bool} : s.readTw k im = .accessFault ↔ s.tv = false ∨ s.mVal ≤ k :=
  guardedCell_eq_accessFault

theorem readRev_eq_accessFault {i : Nat} : s.readRev i = .accessFault ↔ s.rv = false ∨ s.lVal ≤ i :=
  guardedCell_eq_accessFault

theorem portRead_eq_accessFault : s.portRead addr width = .accessFault ↔ s.refuses (.read addr width) := by
  cases hs : shapeOk addr width with
  | false => simp [State.portRead, State.refuses, hs]
  | true =>
    have hlt := regionOf_lt addr
    interval_cases hr : regionOf addr
    · simp [State.portRead, State.refuses, hs, hr, readCsr_eq_accessFault]
    · simp [State.portRead, State.refuses, hs, hr, readWin_eq_accessFault]
    · simp [State.portRead, State.refuses, hs, hr, readTw_eq_accessFault]
    · simp [State.portRead, State.refuses, hs, hr, readRev_eq_accessFault]

/-! ### Which writes are refused (R70 (a), (b), (c), (e)) -/

theorem refuses_cmdWrite : s.refuses (cmdWrite v) ↔ s.runState = .fault := by
  simp [State.refuses, cmdWrite, shapeOk_csrAddr, regionOf_csrAddr, offsetOf_csrAddr, Csr.offset_injective.eq_iff]

theorem not_refuses_ctrlWrite : ¬ s.refuses (.write (csrAddr .ctrl) 8 v) := by
  simp [State.refuses, shapeOk_csrAddr, regionOf_csrAddr, offsetOf_csrAddr, Csr.offset_injective.eq_iff]

/-- An admitted write has the address and the width of `CMD` or of `CTRL`. -/
theorem target_of_not_refuses_write (h : ¬ s.refuses (.write addr width v)) :
    (addr = csrAddr .cmd ∧ width = 8) ∨ (addr = csrAddr .ctrl ∧ width = 8) := by
  simp only [State.refuses, not_or, Bool.not_eq_false, not_not] at h
  obtain ⟨hs, hr, hlisted, hwritable, -⟩ := h
  obtain ⟨c, hc⟩ := not_forall_not.mp hlisted
  obtain ⟨rfl, rfl⟩ := eq_csrAddr_of_csrAt hs hr (csrAt_eq_some.mpr hc.symm)
  by_cases hcmd : c = .cmd
  · exact .inl ⟨hcmd ▸ rfl, rfl⟩
  · by_cases hctrl : c = .ctrl
    · exact .inr ⟨hctrl ▸ rfl, rfl⟩
    · exact absurd ⟨c, hcmd, hctrl, hc⟩ hwritable

/-! ### What an access answers and what it leaves -/

theorem hostStep_cmdWrite (hf : s.runState ≠ .fault) : hostStep (cmdWrite v) s = acknowledge (engine v s) :=
  if_neg hf

/-- A refused access answers `AccessFault` and does nothing else. -/
theorem hostStep_of_refuses (h : s.refuses op) : hostStep op s = .next (s.respond .accessFault) := by
  cases op with
  | read addr width => rw [hostStep, portRead_eq_accessFault.mpr h, answerRead]
  | write addr width v =>
    rcases portWrite_target addr width v s with ⟨rfl, rfl⟩ | ⟨rfl, rfl⟩ | href
    · exact if_pos (refuses_cmdWrite.mp h)
    · exact absurd h not_refuses_ctrlWrite
    · exact href
  | hardReset => exact h.elim

/-- An operation that is not refused answers something else than `AccessFault`. -/
theorem resp_ne_accessFault_of_not_refuses (hop : ¬ s.refuses op) (h : hostStep op s = .next t) :
    t.resp ≠ .accessFault := by
  cases op with
  | read addr width =>
    rcases answerRead_cases h with ⟨v, -, rfl⟩ | ⟨href, -⟩
    · simp
    · exact absurd (portRead_eq_accessFault.mp href) hop
  | write addr width v =>
    rcases target_of_not_refuses_write hop with ⟨rfl, rfl⟩ | ⟨rfl, rfl⟩
    · rcases writeCmd_cases h with ⟨hf, -⟩ | ⟨-, u, -, rfl⟩
      · exact absurd (refuses_cmdWrite.mpr hf) hop
      · simp
    · cases hv : v.getLsbD 0 with
      | true => cases (hostStep_ctrl_of_set hv s).symm.trans h; simp
      | false => cases (hostStep_ctrl_of_clear hv s).symm.trans h; simp
  | hardReset => cases h; simp

theorem resp_eq_accessFault_iff (h : hostStep op s = .next t) : t.resp = .accessFault ↔ s.refuses op := by
  refine ⟨fun hr => ?_, fun hop => ?_⟩
  · by_contra hop
    exact resp_ne_accessFault_of_not_refuses hop h hr
  · cases (hostStep_of_refuses hop).symm.trans h
    rfl

/-- The host's side of the port has no part in what is refused. -/
theorem refuses_setScript (ops : List HostOp) : (s.setScript ops).refuses op ↔ s.refuses op := by
  cases op <;> exact Iff.rfl

@[simp] theorem State.respond_block (s : State) (r : PortResp) : (s.respond r).block = s.block := rfl

@[simp] theorem State.setScript_block (s : State) (ops : List HostOp) : (s.setScript ops).block = s.block := rfl

/-- What a read returns is a function of the block's state (R71). -/
theorem portRead_eq_of_block (h : s.block = t.block) : s.portRead addr width = t.portRead addr width :=
  calc s.portRead addr width
    _ = s.block.portRead addr width := rfl
    _ = t.block.portRead addr width := by rw [h]
    _ = t.portRead addr width := rfl

/-- A read leaves the block as it is (R71). -/
theorem hostStep_read_block (h : hostStep (.read addr width) s = .next t) : t.block = s.block := by
  rcases answerRead_cases h with ⟨v, -, rfl⟩ | ⟨-, rfl⟩ <;> rfl

/-- The answer to a read is determined by the block's state (R71). -/
theorem hostStep_read_resp_eq {s' t' : State} (hb : s.block = s'.block) (h : hostStep (.read addr width) s = .next t)
    (h' : hostStep (.read addr width) s' = .next t') : t.resp = t'.resp := by
  rw [hostStep, portRead_eq_of_block hb] at h
  rcases answerRead_cases h with ⟨v, hv, rfl⟩ | ⟨hr, rfl⟩
  · rw [hostStep, hv] at h'
    cases h'
    rfl
  · rw [hostStep, hr] at h'
    cases h'
    rfl

/-! ### Which commands give a table byte a value (R69) -/

/-- The commands that fill a table. -/
def GeneratesTable (i : Instr) : Prop := i = .genwin ∨ i = .gentw ∨ i = .genrev ∨ ∃ n, i = .genall n

/-- A command that is not one of the generating ones leaves the memory alone or, when it is `DERIVE`, empties it. -/
theorem exec_mem_of_not_generates {i : Instr} (hi : ¬ GeneratesTable i) (h : exec i s = .next t) :
    t.mem = s.mem ∨ t.mem = [] := by
  cases i with
  | derive n =>
    rcases exec_derive_cases h with ⟨-, rfl⟩ | ⟨-, -, rfl⟩
    · exact .inl rfl
    · exact .inr rfl
  | genwin => exact absurd (.inl rfl) hi
  | gentw => exact absurd (.inr (.inl rfl)) hi
  | genrev => exact absurd (.inr (.inr (.inl rfl))) hi
  | genall n => exact absurd (.inr (.inr (.inr ⟨n, rfl⟩))) hi
  | wsamp idx => rcases exec_wsamp_cases h with ⟨-, rfl⟩ | ⟨-, rfl⟩ <;> exact .inl rfl
  | twsamp idx => cases (exec_twsamp idx s).symm.trans h; exact .inl rfl
  | bitrev idx => cases (exec_bitrev idx s).symm.trans h; exact .inl rfl

/-- A host operation leaves the memory alone, empties it, or is the write of a generating command. -/
theorem hostStep_mem (h : hostStep op s = .next t) : t.mem = s.mem ∨ t.mem = [] ∨
    ∃ v i, op = cmdWrite v ∧ decode v = .command i ∧ GeneratesTable i := by
  rcases hostStep_cases h with ⟨r, rfl⟩ | ⟨r, rfl⟩ | ⟨v, u, hop, -, hu, rfl⟩
  · exact .inl rfl
  · exact .inr (.inl rfl)
  · rcases engine_cases hu with ⟨i, hi, hx⟩ | ⟨-, -, rfl⟩
    · by_cases hg : GeneratesTable i
      · exact .inr (.inr ⟨v, i, hop, hi, hg⟩)
      · exact (exec_mem_of_not_generates hg hx).imp_right .inl
    · exact .inl rfl

end Access

/-! ### The statements -/

/-- Settles O46: a write outside region 0 meets cause (c), and of the host's operations only the write of a generating
command gives a byte a value. -/
theorem hostCannotWriteTables : Obligations.HostCannotWriteTables := by
  unfold Obligations.HostCannotWriteTables
  refine ⟨fun s addr width v hr => ?_, fun s t op ops a b hs hx hb => ?_⟩
  · exact hostStep_of_refuses (.inr (.inl (by omega)))
  · rcases hostStep_mem ((step_cons hs).symm.trans hx) with hm | hm | hgen
    · exact .inl (hm ▸ hb)
    · rw [hm] at hb
      cases hb
    · exact .inr hgen

/-- Settles O47: the answer is `AccessFault` exactly where `State.refuses` holds, and there the step only answers. -/
theorem accessFaultCausesAndEffect : Obligations.AccessFaultCausesAndEffect := by
  unfold Obligations.AccessFaultCausesAndEffect
  intro s t op ops hs hx
  have hstep : hostStep op (s.setScript ops) = .next t := (step_cons hs).symm.trans hx
  have hiff := resp_eq_accessFault_iff hstep
  refine ⟨hiff.trans (refuses_setScript ops), fun hr => ?_⟩
  cases (hostStep_of_refuses (hiff.mp hr)).symm.trans hstep
  rfl

/-- Settles O48: a read keeps the block, on which its answer depends alone; a write that is no command and no reset only
answers. -/
theorem readsHaveNoSideEffect : Obligations.ReadsHaveNoSideEffect := by
  unfold Obligations.ReadsHaveNoSideEffect
  refine ⟨fun s t u addr width ops hs hx hy => ?_, fun s t addr width v ops hs hx => ?_⟩
  · have hfirst := (step_cons hs).symm.trans hx
    have hblock := hostStep_read_block hfirst
    have htscript : t.script = .read addr width :: ops := by
      rcases answerRead_cases hfirst with ⟨v, -, rfl⟩ | ⟨-, rfl⟩ <;> rfl
    have hsecond := (step_cons htscript).symm.trans hy
    have hresp : u.resp = t.resp := hostStep_read_resp_eq (s := t.setScript ops) hblock hsecond hfirst
    exact ⟨hblock, (hostStep_read_block hsecond).trans hblock, hresp⟩
  · have hstep := (step_cons hs).symm.trans hx
    cases hop : (HostOp.write addr width v).resets with
    | true => exact .inr (.inr (of_decide_eq_true hop))
    | false =>
      rcases hostStep_cases_of_not_resets hop hstep with ⟨r, rfl⟩ | ⟨w, _, hcmd, -⟩
      · exact .inl rfl
      · cases hcmd
        exact .inr (.inl ⟨rfl, rfl⟩)

/-- Settles O7: `FAULT` is cause (e); outside it the engine answers a next state for every value. -/
theorem commandAdmission : Obligations.CommandAdmission := by
  unfold Obligations.CommandAdmission
  intro s v ops hs
  rw [step_cons hs]
  refine ⟨fun hf => hostStep_of_refuses (refuses_cmdWrite.mpr hf), fun hf => ?_⟩
  obtain ⟨t, ht⟩ := engine_next v (s.setScript ops)
  exact ⟨t, ht, (hostStep_cmdWrite (s := s.setScript ops) hf).trans (acknowledge_eq_next.mpr ⟨t, ht, rfl⟩)⟩

/-- Settles O42: the reads and the two writable registers by their equations, every other access by its cause of
refusal. -/
theorem registerAccesses : Obligations.RegisterAccesses := by
  unfold Obligations.RegisterAccesses
  refine ⟨fun s c => ⟨portRead_csrAddr c s, rfl, rfl⟩,
    fun s v => ⟨portWrite_csrAddr_cmd v s, portWrite_csrAddr_ctrl v s⟩, fun s c v hcmd hctrl => ?_,
    fun s addr v hr hoff => ?_⟩
  · exact hostStep_of_refuses (op := .write (csrAddr c) 8 v)
      (.inr (.inr (.inr (.inl ⟨c, hcmd, hctrl, offsetOf_csrAddr c⟩))))
  · have hne := offsetOf_ne_of_le hr hoff
    exact ⟨portRead_eq_accessFault.mpr (.inr (.inl ⟨hr, hne⟩)),
      hostStep_of_refuses (op := .write addr 8 v) (.inr (.inr (.inl hne)))⟩

/-- Settles O43: such an access meets cause (a), whether it reads or writes. -/
theorem onlyAlignedEightByteAccesses : Obligations.OnlyAlignedEightByteAccesses := by
  unfold Obligations.OnlyAlignedEightByteAccesses
  intro s addr width v h
  have hs : shapeOk addr width = false := by
    rw [← Bool.not_eq_true, shapeOk_iff]
    omega
  exact ⟨hostStep_of_refuses (.inl hs), hostStep_of_refuses (.inl hs)⟩

end Sys2Proof.Machine
end

section
/-! SUPPORT and PROOFS for spec/30_encoding.md: a command word as its two fields, which words a row of the opcode table
selects, what the decoder and the engine do with a value; and the statements about the decoder. -/

namespace Sys2Proof.Machine

/-! ### A word is its two fields -/

section Fields
variable {cmd p : Command} {v : Reg}

theorem opField_toNat (cmd : Command) : (opField cmd).toNat = cmd.toNat / 2 ^ 24 := by
  have := cmd.isLt
  rw [opField, BitVec.extractLsb'_toNat, Nat.shiftRight_eq_div_pow]
  omega

theorem immField_toNat (cmd : Command) : (immField cmd).toNat = cmd.toNat % 2 ^ 24 := by
  rw [immField, BitVec.extractLsb'_toNat, Nat.shiftRight_zero]

theorem eq_iff_fields : cmd = p ↔ opField cmd = opField p ∧ immField cmd = immField p := by
  simp only [← BitVec.toNat_inj, opField_toNat, immField_toNat]
  omega

/-- The mask of formats N and I keeps `OP` and clears `IMM` (R94). -/
theorem and_opMask_eq_iff (hp : immField p = 0#24) : cmd &&& 0xFF000000#32 = p ↔ opField cmd = opField p := by
  have hop : opField (cmd &&& 0xFF000000#32) = opField cmd :=
    BitVec.extractLsb'_and.trans (BitVec.and_allOnes (x := opField cmd))
  have himm : immField (cmd &&& 0xFF000000#32) = 0#24 :=
    BitVec.extractLsb'_and.trans (BitVec.and_zero (x := immField cmd))
  rw [eq_iff_fields, hop, himm, hp, and_iff_left rfl]

/-- The mask of format Z keeps the whole word (R94). -/
theorem and_fullMask_eq_iff (hp : immField p = 0#24) :
    cmd &&& 0xFFFFFFFF#32 = p ↔ opField cmd = opField p ∧ immField cmd = 0#24 := by
  rw [show cmd &&& 0xFFFFFFFF#32 = cmd from BitVec.and_allOnes, eq_iff_fields, hp]

/-- `IMM` of the low half, read from the value itself. -/
theorem immField_lowHalf (v : Reg) : immField (v.extractLsb' 0 32) = v.extractLsb' 0 24 := by
  apply BitVec.eq_of_toNat_eq
  rw [immField_toNat, BitVec.extractLsb'_toNat, BitVec.extractLsb'_toNat]
  omega

theorem upperHalf_eq_zero_iff : v.extractLsb' 32 32 = 0#32 ↔ v.toNat < 2 ^ 32 := by
  have := v.isLt
  rw [← BitVec.toNat_inj, BitVec.extractLsb'_toNat, Nat.shiftRight_eq_div_pow, BitVec.toNat_ofNat]
  omega

end Fields

/-! ### The rows of the opcode table -/

section Rows
variable {cmd : Command} {r r' : Row}

/-- A row selects by its `OP`, and a row of format Z by an empty `IMM` too (R92, R94). -/
theorem selects_iff (hr : r ∈ opcodeTable) :
    r.selects cmd = true ↔ opField cmd = opField r.pattern ∧ (r.format = .z → immField cmd = 0#24) := by
  have himm : ∀ r ∈ opcodeTable, immField r.pattern = 0#24 := by decide
  have hmask : ∀ r ∈ opcodeTable, r.mask = if r.format = .z then 0xFFFFFFFF#32 else 0xFF000000#32 := by decide
  rw [Row.selects, beq_iff_eq, hmask r hr]
  by_cases hz : r.format = .z
  · simp [hz, and_fullMask_eq_iff (himm r hr)]
  · simp [hz, and_opMask_eq_iff (himm r hr)]

/-- No two rows have the same `OP`, so no word selects two rows (R94). -/
theorem eq_of_selects (hr : r ∈ opcodeTable) (hr' : r' ∈ opcodeTable) (h : r.selects cmd = true)
    (h' : r'.selects cmd = true) : r = r' := by
  have hop : ∀ r ∈ opcodeTable, ∀ r' ∈ opcodeTable, opField r.pattern = opField r'.pattern → r = r' := by decide
  exact hop r hr r' hr' (((selects_iff hr).mp h).1.symm.trans ((selects_iff hr').mp h').1)

/-- The words no row selects: an unassigned `OP`, or a format Z `OP` with an operand (R100 (b), (c)). -/
theorem forall_not_selects_iff : (∀ r ∈ opcodeTable, ¬ r.selects cmd = true) ↔
    ((opField cmd).toNat = 0 ∨ (6 ≤ (opField cmd).toNat ∧ (opField cmd).toNat ≤ 16) ∨ 20 ≤ (opField cmd).toNat) ∨
      (((opField cmd).toNat = 2 ∨ (opField cmd).toNat = 3 ∨ (opField cmd).toNat = 4) ∧ (immField cmd).toNat ≠ 0) := by
  have hsel : (∀ r ∈ opcodeTable, ¬ r.selects cmd = true) ↔ ∀ r ∈ opcodeTable,
      ¬ ((opField cmd).toNat = (opField r.pattern).toNat ∧ (r.format = .z → (immField cmd).toNat = 0)) :=
    forall₂_congr fun r hr => by rw [selects_iff hr, ← BitVec.toNat_inj, ← BitVec.toNat_inj (y := 0#24)]; rfl
  rw [hsel]
  generalize (opField cmd).toNat = op, (immField cmd).toNat = imm
  simp only [opcodeTable, row, opField, List.forall_mem_cons, List.not_mem_nil, BitVec.extractLsb'_toNat,
    BitVec.toNat_ofNat, Nat.reducePow, Nat.reduceMod, Nat.reduceShiftRight, Nat.one_mod, reduceCtorEq, false_imp_iff,
    true_imp_iff, implies_true, and_true]
  omega

end Rows

/-! ### The decoder and the engine -/

section Decoder
variable {v : Reg} {i : Instr} {why : Illegal} {s : State}

theorem decode_eq_command_iff : decode v = .command i ↔ v.extractLsb' 32 32 = 0#32 ∧
    ∃ r ∈ opcodeTable, r.selects (v.extractLsb' 0 32) = true ∧ i = instrOf r.op (v.extractLsb' 0 24) := by
  unfold decode
  split
  next hup => simp [hup]
  next hup =>
    rw [and_iff_right (not_not.mp hup), immField_lowHalf]
    split
    next r hfind =>
      have hsel := List.find?_some hfind
      have hr := List.mem_of_find?_eq_some hfind
      refine ⟨fun h => ?_, fun ⟨r', hr', hsel', hi⟩ => ?_⟩
      · cases h
        exact ⟨r, hr, hsel, rfl⟩
      · rw [hi, eq_of_selects hr hr' hsel hsel']
    next hfind =>
      refine iff_of_false nofun fun ⟨r, hr, hsel, _⟩ => ?_
      exact List.find?_eq_none.mp hfind r hr hsel

theorem exists_decode_eq_command_iff : (∃ i, decode v = .command i) ↔ v.extractLsb' 32 32 = 0#32 ∧
    ∃ r ∈ opcodeTable, r.selects (v.extractLsb' 0 32) = true := by
  simp only [decode_eq_command_iff]
  exact ⟨fun ⟨_, hup, r, hr, hsel, _⟩ => ⟨hup, r, hr, hsel⟩, fun ⟨hup, r, hr, hsel⟩ => ⟨_, hup, r, hr, hsel, rfl⟩⟩

/-- A value is illegal by its upper half, or because no row selects its low half (R90, R100). -/
theorem exists_decode_eq_illegal_iff : (∃ why, decode v = .illegal why) ↔
    v.extractLsb' 32 32 ≠ 0#32 ∨ ∀ r ∈ opcodeTable, ¬ r.selects (v.extractLsb' 0 32) = true := by
  have hcommand : (∃ why, decode v = .illegal why) ↔ ¬ ∃ i, decode v = .command i := by
    cases decode v <;> simp
  rw [hcommand, exists_decode_eq_command_iff, not_and_or]
  simp only [not_exists, not_and, ne_eq]

theorem engine_of_command (h : decode v = .command i) : engine v s = exec i s := by
  rw [engine, h]

theorem engine_of_illegal (h : decode v = .illegal why) : engine v s = .next (s.raise .invalidInvocation v) := by
  rw [engine, h]

end Decoder

/-! ### The statements -/

/-- Settles O4: two rows that select a word share its `OP`; the decoder finds the one row that selects the low half. -/
theorem decoderFollowsOpcodeTable : Obligations.DecoderFollowsOpcodeTable := by
  unfold Obligations.DecoderFollowsOpcodeTable
  refine ⟨fun cmd r r' => eq_of_selects, fun v i => ?_, fun v s => ?_⟩
  · simpa only [Row.selects, beq_iff_eq] using decode_eq_command_iff
  · cases hd : decode v with
    | command i => exact .inl ⟨i, rfl, engine_of_command hd⟩
    | illegal why => exact .inr ⟨fun _ => nofun, engine_of_illegal hd⟩

/-- Settles O5: the three kinds are read off the two fields of the low half. -/
theorem illegalValuesAreExactlyListed : Obligations.IllegalValuesAreExactlyListed := by
  unfold Obligations.IllegalValuesAreExactlyListed
  refine ⟨fun v => ?_, fun _ _ _ => engine_of_illegal, ⟨.unassignedOp, by decide⟩, ⟨.unassignedOp, by decide⟩⟩
  rw [exists_decode_eq_illegal_iff, forall_not_selects_iff, opField_toNat, immField_toNat, BitVec.extractLsb'_toNat,
    ne_eq, upperHalf_eq_zero_iff]
  omega

end Sys2Proof.Machine
end

section
/-! SUPPORT and PROOFS for spec/40_numerics.md: the quantiser on real numbers, the fixed-point cosine against the real
one, the reference numerics as the rounded ideal values, the range of the elements, and the printed form. -/

namespace Sys2Proof.Machine

theorem scale_cast : (SCALE : ℝ) = 10000000000 := by norm_num [SCALE]

/-! ### The quantiser on real numbers (R122) -/

section Quantiser
variable {v : ℝ}

/-- The quantiser in terms of the integer part and the rest, as `q10_eq` says it for the integer quantiser. -/
theorem q10Real_eq {f : Int} {r : ℝ} (h : v * SCALE = f + r) (h0 : 0 ≤ r) (h1 : r < 1) :
    q10Real v = if r < 1 / 2 then f else if 1 / 2 < r then f + 1 else if f % 2 = 0 then f else f + 1 := by
  have hf : ⌊v * SCALE⌋ = f := by
    rw [Int.floor_eq_iff]
    constructor <;> linarith
  have hr : v * SCALE - f = r := by linarith
  simp only [q10Real, hf, hr]

/-- The result is the floor or the ceiling: within half a unit, and even at a tie. -/
theorem q10Real_near_and_even (v : ℝ) :
    |v * SCALE - q10Real v| ≤ 1 / 2 ∧ (|v * SCALE - q10Real v| = 1 / 2 → q10Real v % 2 = 0) := by
  have hx : v * SCALE = ⌊v * SCALE⌋ + Int.fract (v * SCALE) := (Int.floor_add_fract _).symm
  have h0 := Int.fract_nonneg (v * SCALE)
  have h1 := Int.fract_lt_one (v * SCALE)
  rw [q10Real_eq hx h0 h1]
  generalize ⌊v * SCALE⌋ = f at hx
  generalize Int.fract (v * SCALE) = r at hx h0 h1
  have hdown : |v * SCALE - f| = r := by rw [hx, add_sub_cancel_left, abs_of_nonneg h0]
  have hup : |v * SCALE - (f + 1 : Int)| = 1 - r := by
    rw [hx, abs_of_nonpos (by push_cast; linarith)]
    push_cast
    ring
  split
  · rw [hdown]
    exact ⟨by linarith, fun h => by linarith⟩
  · split
    · rw [hup]
      exact ⟨by linarith, fun h => by linarith⟩
    · split
      next heven => exact ⟨by rw [hdown]; linarith, fun _ => heven⟩
      next hodd => exact ⟨by rw [hup]; linarith, fun _ => by omega⟩

/-- Two integers, one within half a unit and one nearer, are equal. -/
theorem q10Real_eq_of_near {m : Int} (h : |v * SCALE - m| < 1 / 2) : q10Real v = m := by
  have hq := (q10Real_near_and_even v).1
  rw [abs_le] at hq
  rw [abs_lt] at h
  have h1 : (q10Real v : ℝ) < m + 1 := by linarith
  have h2 : (m : ℝ) < q10Real v + 1 := by linarith
  norm_cast at h1 h2
  omega

/-- The integer quantiser is the real one on every rational number: the quotient and the remainder over `den` are the
integer part and the rest. -/
theorem q10_eq_q10Real (num : Int) {den : Nat} (hd : 0 < den) : q10 num den = q10Real ((num : ℝ) / den) := by
  have hd' : (0 : Int) < den := by omega
  have hdR : (0 : ℝ) < den := by exact_mod_cast hd
  have hx : num * SCALE = num * SCALE / den * den + num * SCALE % den := (Int.ediv_mul_add_emod _ _).symm
  have h0 := Int.emod_nonneg (num * SCALE) hd'.ne'
  have h1 := Int.emod_lt_of_pos (num * SCALE) hd'
  generalize num * SCALE / (den : Int) = f at hx
  generalize num * SCALE % (den : Int) = r at hx h0 h1
  have hxR : (num : ℝ) / den * SCALE = f + (r : ℝ) / den := by
    rw [div_mul_eq_mul_div, div_eq_iff hdR.ne', add_mul, div_mul_cancel₀ _ hdR.ne']
    exact_mod_cast hx
  have h0R : (0 : ℝ) ≤ r / den := div_nonneg (by exact_mod_cast h0) hdR.le
  have h1R : (r : ℝ) / den < 1 := by
    rw [div_lt_one hdR]
    exact_mod_cast h1
  have hlow : (r : ℝ) / den < 1 / 2 ↔ 2 * r < den := by
    rw [div_lt_div_iff₀ hdR two_pos, one_mul, mul_comm]
    norm_cast
  have hhigh : 1 / 2 < (r : ℝ) / den ↔ (den : Int) < 2 * r := by
    rw [div_lt_div_iff₀ two_pos hdR, one_mul, mul_comm]
    norm_cast
  rw [q10_eq hx h0 h1, q10Real_eq hxR h0R h1R]
  simp only [hlow, hhigh]

end Quantiser

/-! ### The ideal values as cosines of a part of a turn (R121) -/

section Ideal
variable {L : Nat}

/-- The cosine of a part of a turn does not see whole turns. -/
theorem twReExact_mod (hL : 1 ≤ L) (k : Nat) : twReExact L (k % L) = twReExact L k := by
  have := turnVec_mod (a := 1) hL k
  simpa [turnVec, twReExact] using this

/-- The sine is the cosine three quarters of a turn further on, as in `sinTurn`. -/
theorem twImExact_eq_twReExact (hL : 1 ≤ L) (k : Nat) : twImExact L k = twReExact (4 * L) (4 * k + 3 * L) := by
  have hL0 : (L : ℝ) ≠ 0 := by exact_mod_cast (by omega : L ≠ 0)
  have hangle : 2 * Real.pi * ((4 * k + 3 * L : Nat) : ℝ) / ((4 * L : Nat) : ℝ) =
      2 * Real.pi * k / L - Real.pi / 2 + 2 * Real.pi := by
    push_cast
    field_simp
    ring
  rw [twImExact, twReExact, hangle, Real.cos_add_two_pi, Real.cos_sub_pi_div_two]

theorem wExact_eq_twReExact (hL : 1 ≤ L) (i : Nat) : wExact L i = 0.35875 - 0.48829 * twReExact (L - 1) i +
    0.14128 * twReExact (L - 1) (2 * i) - 0.01168 * twReExact (L - 1) (3 * i) := by
  have h2 : 2 * Real.pi * ((2 * i : Nat) : ℝ) = 4 * Real.pi * i := by push_cast; ring
  have h3 : 2 * Real.pi * ((3 * i : Nat) : ℝ) = 6 * Real.pi * i := by push_cast; ring
  rw [wExact, twReExact, twReExact, twReExact, h2, h3, Nat.cast_sub hL, Nat.cast_one]

theorem twReExact_abs_le_one (L k : Nat) : |twReExact L k| ≤ 1 := Real.abs_cos_le_one _

theorem twImExact_abs_le_one (L k : Nat) : |twImExact L k| ≤ 1 := Real.abs_sin_le_one _

/-- The four coefficients add up to 1. -/
theorem wExact_abs_le_one (hL : 1 ≤ L) (i : Nat) : |wExact L i| ≤ 1 := by
  have h1 := twReExact_abs_le_one (L - 1) i
  have h2 := twReExact_abs_le_one (L - 1) (2 * i)
  have h3 := twReExact_abs_le_one (L - 1) (3 * i)
  rw [abs_le] at h1 h2 h3
  rw [wExact_eq_twReExact hL, abs_le]
  constructor <;> linarith

end Ideal

/-! ### The fixed-point evaluation (R132, log 1) -/

section FixedPoint
variable {p d : Nat}

/-- The argument `cosTurn` hands to `cosSmall` lies within 11 units of the eighth of the angle. -/
theorem eighthAngle_near (p : Nat) {r : Nat} (hr : r < d) :
    |((piFix p * (r : Nat) / (4 * d : Nat) : Int) : ℝ) - 2 ^ p * (2 * Real.pi * r / d / 8)| ≤ 11 := by
  have hdR : (0 : ℝ) < d := by exact_mod_cast (by omega : 0 < d)
  have hdiv := ediv_near (piFix p * (r : Nat)) (n := ((4 * d : Nat) : Int)) (by omega)
  have hfrac : |(r : ℝ) / (4 * d)| ≤ 1 / 4 := by
    have hrR : (r : ℝ) ≤ d := by exact_mod_cast hr.le
    rw [abs_of_nonneg (by positivity), div_le_div_iff₀ (by positivity) (by norm_num)]
    linarith
  have hpi : |((piFix p * (r : Nat) : Int) : ℝ) / (4 * d : Nat) - 2 ^ p * (2 * Real.pi * r / d / 8)| ≤ 10 := by
    have heq : ((piFix p * (r : Nat) : Int) : ℝ) / (4 * d : Nat) - 2 ^ p * (2 * Real.pi * r / d / 8) =
        (piFix p - 2 ^ p * Real.pi) * (r / (4 * d)) := by
      push_cast
      field_simp
      ring
    rw [heq, abs_mul]
    calc _ ≤ (40 : ℝ) * (1 / 4) := mul_le_mul (piFix_near p) hfrac (abs_nonneg _) (by norm_num)
      _ = 10 := by norm_num
  push_cast at hdiv hpi ⊢
  calc _ ≤ _ := abs_sub_le _ _ _
    _ ≤ 1 + 10 := add_le_add hdiv hpi
    _ = 11 := by norm_num

/-- `cosSmall` of an argument within 11 units of an angle below `π/4` lies within 14 units of the cosine. -/
theorem cosSmall_near_of_near (hp : 64 ≤ p) {x : Int} {y : ℝ} (hx : |(x : ℝ) - 2 ^ p * y| ≤ 11) (hy0 : 0 ≤ y)
    (hy : y ≤ Real.pi / 4) : |(cosSmall p x : ℝ) - 2 ^ p * Real.cos y| ≤ 14 := by
  have hbig : (2 : ℝ) ^ 64 ≤ 2 ^ p := pow_le_pow_right₀ (by norm_num) hp
  have hP : (0 : ℝ) < 2 ^ p := by positivity
  have hsmall : |(x : ℝ)| ≤ 2 ^ p := by
    have hy' : y ≤ 4 / 5 := by linarith [Real.pi_lt_d2]
    have := mul_le_mul_of_nonneg_left hy' hP.le
    have := mul_nonneg hP.le hy0
    rw [abs_le] at hx ⊢
    constructor <;> linarith
  have hcos : |2 ^ p * Real.cos (x / 2 ^ p) - 2 ^ p * Real.cos y| ≤ 11 := by
    rw [← mul_sub, abs_mul, abs_of_pos hP]
    calc _ ≤ 2 ^ p * |(x : ℝ) / 2 ^ p - y| := mul_le_mul_of_nonneg_left (Real.abs_cos_sub_cos_le _ _) hP.le
      _ = |(x : ℝ) - 2 ^ p * y| := by
        rw [← abs_of_pos hP, ← abs_mul, abs_of_pos hP, mul_sub, mul_div_cancel₀ _ hP.ne']
      _ ≤ 11 := hx
  calc _ ≤ _ := abs_sub_le _ _ _
    _ ≤ 3 + 11 := add_le_add (cosSmall_near p hsmall) hcos
    _ = 14 := by norm_num

/-- Three doublings take the 14 units of the eighth of the angle to 59, 239 and 959. -/
theorem cosTurn_near (hp : 64 ≤ p) (hd : 1 ≤ d) (a : Nat) :
    |(cosTurn p a d : ℝ) - 2 ^ p * twReExact d a| ≤ turnError := by
  have hbig : (2 : ℝ) ^ 64 ≤ 2 ^ p := pow_le_pow_right₀ (by norm_num) hp
  rw [← twReExact_mod hd, cosTurn]
  split
  next hr => simp [hr, twReExact]
  next hr =>
    have hrd : a % d < d := Nat.mod_lt _ hd
    generalize a % d = r at hrd
    set y : ℝ := 2 * Real.pi * r / d / 8 with hy
    have hdR : (0 : ℝ) < d := by exact_mod_cast hd
    have hy4 : y ≤ Real.pi / 4 := by
      have hrR : (r : ℝ) ≤ d := by exact_mod_cast hrd.le
      rw [hy, div_div, div_le_div_iff₀ (by positivity) (by norm_num)]
      nlinarith [Real.pi_pos]
    have h0 := cosSmall_near_of_near hp (eighthAngle_near p hrd) (by positivity) hy4
    have h1 := cosDouble_near h0 (by linarith)
    have h2 := cosDouble_near h1 (by linarith)
    have h3 := cosDouble_near h2 (by linarith)
    have hangle : 2 * Real.pi * r / d = 2 * (2 * (2 * y)) := by rw [hy]; ring
    rw [twReExact, hangle]
    exact h3.trans (by norm_num [turnError])

/-- The three errors with their coefficients, 64125 times `turnError` together. -/
theorem winFix_near (hp : 64 ≤ p) {L : Nat} (hL : 2 ≤ L) (i : Nat) :
    |(winFix p L i : ℝ) - 2 ^ p * ((100000 : Nat) * wExact L i)| ≤ turnError * (100000 : Nat) := by
  have h1 := cosTurn_near hp (d := L - 1) (by omega) i
  have h2 := cosTurn_near hp (d := L - 1) (by omega) (2 * i)
  have h3 := cosTurn_near hp (d := L - 1) (by omega) (3 * i)
  rw [wExact_eq_twReExact (by omega), winFix]
  have hE : (0 : ℝ) ≤ turnError := Nat.cast_nonneg _
  rw [abs_le] at h1 h2 h3 ⊢
  push_cast
  constructor <;> linarith

end FixedPoint

/-! ### The reference numerics (R123, R124) -/

section Reference
variable {L : Nat}

/-- The distance of the cosine from the ties. -/
theorem twReExact_tie_distance (hL : 1 ≤ L) (k : Nat) (m : Int) :
    1 ≤ |2 * SCALE * twReExact L k - (2 * m + 1)| * 2 ^ (L * (L + 38)) := by
  have h := tie_distance k hL (c0 := 0) (c1 := SCALE) (c2 := 0) (c3 := 0) (n := 2 * m + 1) (by decide) (by decide)
    (by decide) (by decide) (by omega) (by decide)
  convert h using 3
  rw [twReExact]
  push_cast
  ring

/-- The distance of the window from the ties; `2 * SCALE` times its coefficients are even integers. -/
theorem wExact_tie_distance (hL : 2 ≤ L) (i : Nat) (m : Int) :
    1 ≤ |2 * SCALE * wExact L i - (2 * m + 1)| * 2 ^ ((L - 1) * ((L - 1) + 38)) := by
  have h := tie_distance i (d := L - 1) (by omega) (c0 := 7175000000) (c1 := -4882900000) (c2 := 1412800000)
    (c3 := -116800000) (n := 2 * m + 1) (by decide) (by decide) (by decide) (by decide) (by omega) (by decide)
  convert h using 3
  rw [wExact, scale_cast, Nat.cast_sub (by omega : 1 ≤ L), Nat.cast_one]
  push_cast
  ring

theorem refTwre_near (hL : 1 ≤ L) (k : Nat) : |twReExact L k * SCALE - refTwre L k| < 1 / 2 :=
  q10Fix_nearest le_rfl (fun p hp => by simpa using cosTurn_near hp hL k) (twReExact_tie_distance hL k)

theorem refTwim_eq_refTwre (L k : Nat) : refTwim L k = refTwre (4 * L) (4 * k + 3 * L) := rfl

theorem refTwim_near (hL : 1 ≤ L) (k : Nat) : |twImExact L k * SCALE - refTwim L k| < 1 / 2 := by
  rw [twImExact_eq_twReExact hL, refTwim_eq_refTwre]
  exact refTwre_near (by omega) _

theorem refWin_near (hL : 2 ≤ L) (i : Nat) : |wExact L i * SCALE - refWin L i| < 1 / 2 :=
  q10Fix_nearest (by norm_num) (fun _ hp => winFix_near hp hL i) (wExact_tie_distance hL i)

end Reference

/-! ### The range of the elements (R128) -/

/-- An integer within `k + 1` of a scaled value of at most 1 lies in `-(SCALE + k) .. SCALE + k`. -/
theorem abs_le_scale_add {q : Int} {v : ℝ} {k : Nat} (hv : |v| ≤ 1) (hq : |(q : ℝ) - SCALE * v| < k + 1) :
    |q| ≤ SCALE + k := by
  have hlt : |(q : ℝ)| < SCALE + k + 1 := by
    have hS : (0 : ℝ) ≤ SCALE := Nat.cast_nonneg _
    rw [abs_lt] at hq ⊢
    rw [abs_le] at hv
    constructor <;> nlinarith
  norm_cast at hlt
  omega

/-- An integer nearer than half a unit to a scaled value of at most 1 lies in `-SCALE .. SCALE`. -/
theorem abs_le_scale {q : Int} {v : ℝ} (hv : |v| ≤ 1) (hq : |v * SCALE - q| < 1 / 2) : |q| ≤ SCALE := by
  refine abs_le_scale_add (k := 0) hv ?_
  rw [abs_sub_comm, mul_comm]
  push_cast
  linarith

theorem tc64_toInt {q : Int} (h : |q| < 2 ^ 63) : (tc64 q).toInt = q := by
  rw [abs_lt] at h
  rw [tc64, BitVec.toInt_ofInt, Int.bmod_eq_of_le] <;> omega

/-- Every element of `NUM` lies within `eps` of a scaled value of at most 1 (R126). -/
theorem NumOK.exists_near {p : Config.Params} {eps : ℝ} (h : NumOK p eps) {N idx : Nat} (hN : N ≤ p.nmax)
    (hidx : idx < 2 ^ 24) {q : Int} (hq : q = numWin p (2 ^ N) idx ∧ 1 ≤ N ∨ q = numTwre p (2 ^ N) idx ∨
      q = numTwim p (2 ^ N) idx) : ∃ v : ℝ, |v| ≤ 1 ∧ |(q : ℝ) - SCALE * v| ≤ eps := by
  obtain ⟨-, -, hall⟩ := h
  obtain ⟨hwin, htwre, htwim⟩ := hall N idx hN hidx
  rcases hq with ⟨rfl, h1⟩ | rfl | rfl
  · have hL : 2 ^ 1 ≤ 2 ^ N := Nat.pow_le_pow_right two_pos h1
    exact ⟨_, wExact_abs_le_one (by omega) idx, hwin hL⟩
  · exact ⟨_, twReExact_abs_le_one _ idx, htwre⟩
  · exact ⟨_, twImExact_abs_le_one _ idx, htwim⟩

/-! ### The printed form (R130) -/

section Printed
variable {n : Nat}

theorem digitValue_digitChar (n : Nat) : digitValue 10 (digitChar n) = some (n % 10) := by
  have hdigit : ∀ d < 10, digitValue 10 (Char.ofNat (48 + d)) = some d := by decide
  exact hdigit _ (Nat.mod_lt _ (by norm_num))

/-- Reading one more digit at the right end. -/
theorem digitsFrom_append_digitChar (acc : Nat) (cs : List Char) (n : Nat) :
    digitsFrom 10 acc (cs ++ [digitChar n]) = (digitsFrom 10 acc cs).map (fun v => v * 10 + n % 10) := by
  induction cs generalizing acc with
  | nil => simp [digitsFrom, digitValue_digitChar]
  | cons c cs ih =>
    rw [List.cons_append, digitsFrom, digitsFrom]
    cases digitValue 10 c with
    | none => rfl
    | some d => exact ih _

theorem parseDigits_of_ne_nil {base : Nat} {cs : List Char} (h : cs ≠ []) :
    parseDigits base cs = digitsFrom base 0 cs := by
  cases cs with
  | nil => exact absurd rfl h
  | cons c cs => rfl

theorem lastDigits_length (k n : Nat) : (lastDigits k n).length = k := by
  induction k generalizing n with
  | zero => rfl
  | succ k ih => rw [lastDigits, List.length_append, ih, List.length_singleton]

theorem digitsFrom_lastDigits (k n : Nat) : digitsFrom 10 0 (lastDigits k n) = some (n % 10 ^ k) := by
  induction k generalizing n with
  | zero => rw [pow_zero, Nat.mod_one]; rfl
  | succ k ih =>
    rw [lastDigits, digitsFrom_append_digitChar, ih, Option.map_some, pow_succ, mul_comm (10 ^ k), Nat.mod_mul]
    congr 1
    ring

theorem decimalFrom_ne_nil (fuel n : Nat) : decimalFrom (fuel + 1) n ≠ [] := by
  rw [decimalFrom]
  split <;> simp

theorem digitsFrom_decimalFrom {fuel : Nat} (h : n < fuel) : digitsFrom 10 0 (decimalFrom fuel n) = some n := by
  induction fuel generalizing n with
  | zero => omega
  | succ fuel ih =>
    rw [decimalFrom]
    split
    next h10 =>
      rw [← List.nil_append [digitChar n], digitsFrom_append_digitChar, digitsFrom, Option.map_some, zero_mul,
        zero_add, Nat.mod_eq_of_lt h10]
    next h10 =>
      rw [digitsFrom_append_digitChar, ih (by omega), Option.map_some, Nat.div_add_mod']

/-- No leading zero: the digits before the last give `n / 10`, which is not zero where there are any. -/
theorem decimalFrom_head {fuel : Nat} (h : n < fuel) (h0 : (decimalFrom fuel n).head? = some '0') :
    decimalFrom fuel n = ['0'] := by
  induction fuel generalizing n with
  | zero => omega
  | succ fuel ih =>
    rw [decimalFrom] at h0 ⊢
    split at h0
    next h10 =>
      rw [if_pos h10]
      simpa using h0
    next h10 =>
      obtain ⟨fuel, rfl⟩ : ∃ f, fuel = f + 1 := ⟨fuel - 1, by omega⟩
      rw [List.head?_append_of_ne_nil _ (decimalFrom_ne_nil _ _)] at h0
      have hzero := digitsFrom_decimalFrom (n := n / 10) (fuel := fuel + 1) (by omega)
      rw [ih (by omega) h0] at hzero
      have : n / 10 = 0 := (Option.some.inj hzero).symm
      omega

theorem parseDigits_decimal (n : Nat) : parseDigits 10 (decimal n) = some n := by
  rw [decimal, parseDigits_of_ne_nil (decimalFrom_ne_nil _ _), digitsFrom_decimalFrom n.lt_succ_self]

theorem parseDigits_lastDigits {k : Nat} (hk : k ≠ 0) (n : Nat) :
    parseDigits 10 (lastDigits k n) = some (n % 10 ^ k) := by
  rw [parseDigits_of_ne_nil, digitsFrom_lastDigits]
  rwa [← List.length_pos_iff, lastDigits_length, Nat.pos_iff_ne_zero]

end Printed

/-! ### The statements -/

/-- Settles O51: the result is the floor or the ceiling of `v * SCALE`, chosen by the rest. -/
theorem quantiserRoundsToNearestEven : Obligations.QuantiserRoundsToNearestEven := by
  unfold Obligations.QuantiserRoundsToNearestEven
  refine ⟨fun v => ?_, fun num den => q10_eq_q10Real num⟩
  obtain ⟨hnear, heven⟩ := q10Real_near_and_even v
  exact ⟨hnear, fun m => q10Real_eq_of_near, heven⟩

/-- Settles O53: each reference value is an integer nearer than half a unit to the ideal value. -/
theorem referenceIsTheRoundedIdealValue : Obligations.ReferenceIsTheRoundedIdealValue := by
  unfold Obligations.ReferenceIsTheRoundedIdealValue
  intro p L i hnil
  simp only [numWin, numTwre, numTwim, numDelta_of_nil hnil, add_zero]
  exact ⟨fun hL => (q10Real_eq_of_near (refWin_near hL i)).symm, fun hL =>
    ⟨(q10Real_eq_of_near (refTwre_near hL i)).symm, (q10Real_eq_of_near (refTwim_near hL i)).symm⟩⟩

/-- Settles O56: the ideal values lie in `-1 .. 1`, and `NUM` within `EPSQ <= 3` of them, the reference numerics
within 1/2. -/
theorem elementsFitTheirCells : Obligations.ElementsFitTheirCells := by
  unfold Obligations.ElementsFitTheirCells
  refine ⟨fun p eps hok N idx hN hidx q hq => ?_, fun L i => ⟨fun hL => ?_, fun hL => ⟨?_, ?_⟩⟩⟩
  · obtain ⟨v, hv, hnear⟩ := hok.exists_near hN hidx hq
    obtain ⟨-, heps, -⟩ := hok
    have hq3 : |q| ≤ SCALE + 3 := abs_le_scale_add hv (k := 3) (by push_cast; linarith)
    have hS : (SCALE : Int) = 10000000000 := rfl
    exact ⟨hq3, by omega, tc64_toInt (by omega)⟩
  · exact abs_le_scale (wExact_abs_le_one (by omega) i) (refWin_near hL i)
  · exact abs_le_scale (twReExact_abs_le_one L i) (refTwre_near hL i)
  · exact abs_le_scale (twImExact_abs_le_one L i) (refTwim_near hL i)

/-- Settles O59: the integer part is read back digit by digit, and so are the ten decimals, as `SCALE` is `10^10`. -/
theorem printedFormHasTenDecimals : Obligations.PrintedFormHasTenDecimals := by
  unfold Obligations.PrintedFormHasTenDecimals
  intro q
  refine ⟨decimal (q.natAbs / SCALE), lastDigits 10 (q.natAbs % SCALE), rfl, lastDigits_length _ _,
    parseDigits_decimal _, ?_, decimalFrom_head (Nat.lt_succ_self _), fun hq => ?_⟩
  · rw [parseDigits_lastDigits (by norm_num)]
    exact congrArg some (Nat.mod_mod _ SCALE)
  · have hwhole : q.natAbs / SCALE = 0 ∨ q.natAbs / SCALE = 1 := by
      unfold SCALE at hq ⊢
      omega
    rcases hwhole with h | h
    · exact .inl (by rw [h]; rfl)
    · exact .inr (by rw [h]; rfl)

end Sys2Proof.Machine
end

section
/-! SUPPORT and PROOFS for spec/41_size_derivation.md: which outcome of a command each operand test selects, and the
statement about `DERIVE 0`. -/

namespace Sys2Proof.Machine

/-! ### The outcome of a command by its operand test (spec/60_exceptions.md R203) -/

section Outcomes
variable {s : State} {n : Int}

theorem exec_derive_of_le (h0 : 0 ≤ n) (hn : n ≤ s.params.nmax) :
    exec (.derive n) s = .next (s.deriveSizes n.toNat).complete := by
  rw [exec, execDerive, if_neg (by rw [deriveRejects_iff]; omega)]

theorem exec_genall_of_rejects (hn : n < 1 ∨ (s.params.nmax : Int) < n) :
    exec (.genall n) s = .next (s.raise .invalidExponent (cmdValue (.genall n))) := by
  rw [exec, execGenall, if_pos (genallRejects_iff.mpr hn)]

theorem exec_genwin_of_le_one (hL : s.lVal ≤ 1) :
    exec .genwin s = .next (s.raise .invalidExponent (cmdValue .genwin)) := by
  rw [exec, execGenwin, if_pos (windowUndefined_iff.mpr hL)]

theorem exec_wsamp_of_le_one (hL : s.lVal ≤ 1) (idx : Nat) :
    exec (.wsamp idx) s = .next (s.raise .invalidExponent (cmdValue (.wsamp idx))) := by
  rw [exec, execWsamp, if_pos (windowUndefined_iff.mpr hL)]

end Outcomes

/-! ### Reading the bit-reversal table just made -/

theorem State.fillRev_complete_readRev (s : State) {i : Nat} (hi : i < s.lVal) :
    s.fillRev.complete.readRev i = .value (BitVec.ofNat 64 (reverseBits i s.nVal)) := by
  have hadmitted : ¬ (s.fillRev.complete.rv = false ∨ s.fillRev.complete.lVal ≤ i) :=
    not_or_intro nofun (Nat.not_le.mpr hi)
  rw [State.readRev, if_neg hadmitted, State.complete_revElem, s.fillRev_revElem hi, ReadResult.ofCell]

/-! ### The statements -/

/-- Settles O14: at `N = 0` the lengths are `L = 1` and `M = 0`, so the window is undefined, every twiddle pair lies
outside its table, and index 0 is the one element of the bit-reversal table. -/
theorem deriveZero : Obligations.DeriveZero := by
  unfold Obligations.DeriveZero
  intro s
  let t := (s.deriveSizes 0).complete
  obtain ⟨hN, hL, hM⟩ : t.nVal = 0 ∧ t.lVal = 1 ∧ t.mVal = 0 := deriveSizes_sizes s (Nat.zero_le 24)
  have htw (k : Nat) (im : Bool) : t.fillTw.complete.readTw k im = .accessFault :=
    readTw_eq_accessFault.mpr (.inr (hM.trans_le k.zero_le))
  have hrev : t.fillRev.complete.readRev 0 = .value 0#64 := by
    rw [t.fillRev_complete_readRev (hL ▸ zero_lt_one), hN]
    rfl
  have hrevOut (i : Nat) (hi : 1 ≤ i) : t.fillRev.complete.readRev i = .accessFault :=
    readRev_eq_accessFault.mpr (.inr (hL.trans_le hi))
  exact ⟨t, exec_derive_of_le le_rfl (Int.natCast_nonneg _), rfl, rfl, rfl, rfl, exec_genwin_of_le_one hL.le,
    exec_wsamp_of_le_one hL.le, ⟨_, exec_gentw t, rfl, rfl, htw⟩, ⟨_, exec_genrev t, rfl, rfl, hrev, hrevOut⟩,
    exec_genall_of_rejects (.inl zero_lt_one)⟩

end Sys2Proof.Machine
end

section
/-! PROOFS for spec/42_window.md: the undefined window. -/

namespace Sys2Proof.Machine

/-- `L = 2^N` (spec/10_state.md R51) leaves one exponent at which the window is undefined. -/
theorem SpecInv.sizes_of_lVal_le_one {s : State} (h : SpecInv s) (hL : s.lVal ≤ 1) : s.lVal = 1 ∧ s.nVal = 0 := by
  have hN : s.nVal = 0 := by
    by_contra hN
    have hlt : 1 < 2 ^ s.nVal := Nat.one_lt_two_pow hN
    exact absurd (h.lengthL ▸ hL) hlt.not_ge
  exact ⟨by rw [h.lengthL, hN, pow_zero], hN⟩

/-- Settles O16: the operand test selects `State.raise`, which writes the fault record and no sample; under R51
`L = 2^N <= 1` only at `N = 0`. -/
theorem windowUndefinedFaults : Obligations.WindowUndefinedFaults := by
  unfold Obligations.WindowUndefinedFaults
  intro s hL
  exact ⟨exec_genwin_of_le_one hL, exec_wsamp_of_le_one hL, fun h => h.sizes_of_lVal_le_one hL⟩

end Sys2Proof.Machine
end

section
/-! PROOFS for spec/43_twiddle.md: the frame of `GENTW` and its empty table. -/

namespace Sys2Proof.Machine

/-- `GENTW` writes no cell but `TW[0] .. TW[M-1]` (spec/43_twiddle.md R161). -/
theorem State.fillTw_complete_read_out (s : State) {a : Nat} (h : a < twAddr 0 false ∨ twAddr s.mVal false ≤ a) :
    s.fillTw.complete.mem.read a = s.mem.read a := by
  have hend : twAddr s.mVal false = twAddr 0 false + 8 * (twTable s.params s.lVal s.mVal).length := by
    simp only [twAddr, twTable_length]
    omega
  exact Memory.read_storeElems_out (hend ▸ h)

/-- Settles O19: at `M = 0` the range of written cells is empty, so every byte lies before or after it; no index is
below `M`. -/
theorem emptyTwiddleTable : Obligations.EmptyTwiddleTable := by
  unfold Obligations.EmptyTwiddleTable
  intro s hM
  have hread (a : Nat) : s.fillTw.complete.mem.read a = s.mem.read a :=
    s.fillTw_complete_read_out (hM ▸ lt_or_ge a (twAddr 0 false))
  have hrefused (k : Nat) (im : Bool) : s.fillTw.complete.readTw k im = .accessFault :=
    readTw_eq_accessFault.mpr (.inr (hM.trans_le k.zero_le))
  exact ⟨_, exec_gentw s, rfl, rfl, hread, hrefused⟩

end Sys2Proof.Machine
end

section
/-! PROOFS for spec/44_bit_reversal.md: bit `j` of `reverseBits(i, N)` is bit `N-1-j` of `i`, and the two statements read
from the bits. -/

namespace Sys2Proof.Machine

/-! ### The bits of the result (spec/44_bit_reversal.md R172) -/

theorem revStep_testBit (i N rev b j : Nat) :
    (revStep i N rev b).testBit j = true ↔ rev.testBit j = true ∨ N - 1 - b = j ∧ i.testBit b = true := by
  unfold revStep
  split
  case isTrue hb => simp [Nat.one_shiftLeft, Nat.testBit_two_pow, hb]
  case isFalse hb => simp [hb]

/-- After `n` iterations of the loop, bit `j` is set by one of the positions gone through. -/
theorem foldl_revStep_testBit (i N n j : Nat) :
    ((List.range n).foldl (revStep i N) 0).testBit j = true ↔ ∃ b < n, N - 1 - b = j ∧ i.testBit b = true := by
  induction n with
  | zero => simp
  | succ n ih =>
    rw [List.range_succ, List.foldl_append, List.foldl_cons, List.foldl_nil, revStep_testBit, ih,
      Nat.exists_lt_succ_right]

theorem reverseBits_testBit (i N j : Nat) :
    (reverseBits i N).testBit j = (decide (j < N) && i.testBit (N - 1 - j)) := by
  rw [Bool.eq_iff_iff, Bool.and_eq_true, decide_eq_true_iff, reverseBits, foldl_revStep_testBit]
  constructor
  · rintro ⟨b, hb, rfl, hbit⟩
    have hback : N - 1 - (N - 1 - b) = b := by omega
    exact ⟨by omega, hback.symm ▸ hbit⟩
  · rintro ⟨hj, hbit⟩
    exact ⟨N - 1 - j, by omega, by omega, hbit⟩

theorem reverseBits_testBit_of_lt (i : Nat) {N j : Nat} (hj : j < N) :
    (reverseBits i N).testBit j = i.testBit (N - 1 - j) := by
  rw [reverseBits_testBit, decide_eq_true hj, Bool.true_and]

theorem reverseBits_lt (i N : Nat) : reverseBits i N < 2 ^ N :=
  Nat.lt_pow_two_of_testBit _ fun j hj => by rw [reverseBits_testBit, decide_eq_false hj.not_gt, Bool.false_and]

/-- Numbers below `2^N` are equal when they agree on the bits below `N`. -/
theorem eq_iff_testBit_of_lt {x y N : Nat} (hx : x < 2 ^ N) (hy : y < 2 ^ N) :
    x = y ↔ ∀ b < N, x.testBit b = y.testBit b := by
  refine ⟨fun h b _ => h ▸ rfl, fun h => Nat.eq_of_testBit_eq fun b => ?_⟩
  by_cases hb : b < N
  · exact h b hb
  · have hle : 2 ^ N ≤ 2 ^ b := Nat.pow_le_pow_right Nat.zero_lt_two (Nat.not_lt.mp hb)
    rw [Nat.testBit_lt_two_pow (hx.trans_le hle), Nat.testBit_lt_two_pow (hy.trans_le hle)]

theorem sum_low_bits (x N : Nat) : ∑ b ∈ Finset.range N, (x / 2 ^ b % 2) * 2 ^ b = x % 2 ^ N := by
  induction N with
  | zero => rw [Finset.sum_range_zero, pow_zero, Nat.mod_one]
  | succ N ih => rw [Finset.sum_range_succ, ih, Nat.mod_pow_succ, mul_comm]

/-- The closed form of R172: the binary expansion of the result, summed from its top bit down. -/
theorem reverseBits_eq_sum (i N : Nat) :
    reverseBits i N = ∑ b ∈ Finset.range N, (i / 2 ^ b % 2) * 2 ^ (N - 1 - b) := by
  calc reverseBits i N
      = ∑ j ∈ Finset.range N, (reverseBits i N / 2 ^ j % 2) * 2 ^ j := by
        rw [sum_low_bits, Nat.mod_eq_of_lt (reverseBits_lt i N)]
    _ = ∑ b ∈ Finset.range N, (reverseBits i N / 2 ^ (N - 1 - b) % 2) * 2 ^ (N - 1 - b) :=
        (Finset.sum_range_reflect _ N).symm
    _ = ∑ b ∈ Finset.range N, (i / 2 ^ b % 2) * 2 ^ (N - 1 - b) := by
        refine Finset.sum_congr rfl fun b hb => ?_
        have hb : b < N := Finset.mem_range.mp hb
        have hback : N - 1 - (N - 1 - b) = b := by omega
        rw [← Nat.toNat_testBit, reverseBits_testBit_of_lt i (by omega), hback, Nat.toNat_testBit]

theorem reverseBits_mod (i N : Nat) : reverseBits (i % 2 ^ N) N = reverseBits i N := by
  refine (eq_iff_testBit_of_lt (reverseBits_lt _ N) (reverseBits_lt i N)).mpr fun j hj => ?_
  have hlow : N - 1 - j < N := by omega
  rw [reverseBits_testBit_of_lt _ hj, reverseBits_testBit_of_lt _ hj, Nat.testBit_mod_two_pow, decide_eq_true hlow,
    Bool.true_and]

/-! ### The permutation (spec/44_bit_reversal.md R173) -/

theorem reverseBits_reverseBits {i N : Nat} (hi : i < 2 ^ N) : reverseBits (reverseBits i N) N = i := by
  refine (eq_iff_testBit_of_lt (reverseBits_lt _ N) hi).mpr fun j hj => ?_
  have hback : N - 1 - (N - 1 - j) = j := by omega
  rw [reverseBits_testBit_of_lt _ hj, reverseBits_testBit_of_lt _ (by omega), hback]

theorem reverseBits_eq_self_iff {i N : Nat} (hi : i < 2 ^ N) :
    reverseBits i N = i ↔ ∀ b < N, i.testBit b = i.testBit (N - 1 - b) := by
  rw [eq_comm, eq_iff_testBit_of_lt hi (reverseBits_lt i N)]
  exact forall₂_congr fun b hb => by rw [reverseBits_testBit_of_lt i hb]

/-- An involution on `[0, 2^N)` lists every value of the range once. -/
theorem reverseBits_range_perm (N : Nat) :
    List.Perm ((List.range (2 ^ N)).map (fun i => reverseBits i N)) (List.range (2 ^ N)) := by
  have hinj : ∀ i ∈ List.range (2 ^ N), ∀ j ∈ List.range (2 ^ N), reverseBits i N = reverseBits j N → i = j := by
    intro i hi j hj h
    rw [← reverseBits_reverseBits (List.mem_range.mp hi), h, reverseBits_reverseBits (List.mem_range.mp hj)]
  refine (List.perm_ext_iff_of_nodup (List.nodup_range.map_on hinj) List.nodup_range).mpr fun a => ?_
  rw [List.mem_map, List.mem_range]
  constructor
  · rintro ⟨i, -, rfl⟩
    exact reverseBits_lt i N
  · exact fun ha => ⟨reverseBits a N, List.mem_range.mpr (reverseBits_lt a N), reverseBits_reverseBits ha⟩

/-! ### The statements -/

/-- Settles O27: the binary expansion of the result, whose bit `j` is bit `N-1-j` of `i`. -/
theorem reverseBitsClosedForm : Obligations.ReverseBitsClosedForm := by
  unfold Obligations.ReverseBitsClosedForm
  intro i N
  exact ⟨reverseBits_eq_sum i N, (reverseBits_mod i N).symm, Nat.le_sub_one_of_lt (reverseBits_lt i N), rfl⟩

/-- Settles O28: two reversals give each bit below `N` back, and an involution of the range permutes it. -/
theorem reverseBitsPermutation : Obligations.ReverseBitsPermutation := by
  unfold Obligations.ReverseBitsPermutation
  intro N
  exact ⟨reverseBits_range_perm N, fun _ => reverseBits_reverseBits, revTable_length _ N,
    fun _ => reverseBits_eq_self_iff⟩

end Sys2Proof.Machine
end

section
/-! SUPPORT and PROOFS for spec/45_generate_all.md: the three table fills commute, so the generators may run in any
order; reading the three tables just made; and the statements about `GENALL`. -/

namespace Sys2Proof.Machine

/-! ### Stores to ranges that do not overlap -/

/-- What a byte reads as after a store depends on what it read as before, and on nothing else in the memory. -/
theorem Memory.read_storeElems_congr {m m' : Memory} {base a : Nat} {es : List Reg} (h : m.read a = m'.read a) :
    (m.storeElems base es).read a = (m'.storeElems base es).read a := by
  simp only [Memory.storeElems, Memory.read_store, h]

theorem Memory.storeElems_comm {m : Memory} {b b' : Nat} {es es' : List Reg} (hm : m.wf)
    (hsep : b + 8 * es.length ≤ b') :
    (m.storeElems b es).storeElems b' es' = (m.storeElems b' es').storeElems b es := by
  refine Memory.ext_of_wf (Memory.wf_storeElems (Memory.wf_storeElems hm _ _) _ _)
    (Memory.wf_storeElems (Memory.wf_storeElems hm _ _) _ _) fun a => ?_
  rcases Nat.lt_or_ge a b' with ha | ha
  · calc ((m.storeElems b es).storeElems b' es').read a
        = (m.storeElems b es).read a := Memory.read_storeElems_out (.inl ha)
      _ = ((m.storeElems b' es').storeElems b es).read a :=
        Memory.read_storeElems_congr (Memory.read_storeElems_out (.inl ha)).symm
  · have hb : a < b ∨ b + 8 * es.length ≤ a := .inr (hsep.trans ha)
    calc ((m.storeElems b es).storeElems b' es').read a
        = (m.storeElems b' es').read a := Memory.read_storeElems_congr (Memory.read_storeElems_out hb)
      _ = ((m.storeElems b' es').storeElems b es).read a := (Memory.read_storeElems_out hb).symm

/-! ### What a fill leaves: the parameters and the lengths -/

section Frame
variable (s : State)

@[simp] theorem State.fillWin_params : s.fillWin.params = s.params := rfl
@[simp] theorem State.fillWin_nVal : s.fillWin.nVal = s.nVal := rfl
@[simp] theorem State.fillWin_lVal : s.fillWin.lVal = s.lVal := rfl
@[simp] theorem State.fillWin_mVal : s.fillWin.mVal = s.mVal := rfl
@[simp] theorem State.fillTw_params : s.fillTw.params = s.params := rfl
@[simp] theorem State.fillTw_nVal : s.fillTw.nVal = s.nVal := rfl
@[simp] theorem State.fillTw_lVal : s.fillTw.lVal = s.lVal := rfl
@[simp] theorem State.fillTw_mVal : s.fillTw.mVal = s.mVal := rfl
@[simp] theorem State.fillRev_params : s.fillRev.params = s.params := rfl
@[simp] theorem State.fillRev_nVal : s.fillRev.nVal = s.nVal := rfl
@[simp] theorem State.fillRev_lVal : s.fillRev.lVal = s.lVal := rfl
@[simp] theorem State.fillRev_mVal : s.fillRev.mVal = s.mVal := rfl

end Frame

/-! ### The table fills commute (spec/45_generate_all.md R187) -/

/-- The window is defined, each table fits its aperture, and the memory is canonical. -/
structure TablesFit (s : State) : Prop where
  windowDefined : 2 ≤ s.lVal
  lengthL : s.lVal ≤ 2 ^ 24
  lengthM : s.mVal ≤ 2 ^ 23
  memWf : s.mem.wf

section Fills
variable {s : State} {i j : Instr}

theorem TablesFit.fillTw_fillWin (h : TablesFit s) : s.fillTw.fillWin = s.fillWin.fillTw := by
  have hsep : winAddr 0 + 8 * (winTable s.params s.lVal).length ≤ twAddr 0 false := by
    have := h.lengthL
    simp only [winTable_length, winAddr, twAddr, Bool.false_eq_true, ↓reduceIte]
    omega
  exact congrArg (fun m => (s.setMem m).validateWin.validateTw) (Memory.storeElems_comm h.memWf hsep).symm

theorem TablesFit.fillRev_fillWin (h : TablesFit s) : s.fillRev.fillWin = s.fillWin.fillRev := by
  have hsep : winAddr 0 + 8 * (winTable s.params s.lVal).length ≤ revAddr 0 := by
    have := h.lengthL
    simp only [winTable_length, winAddr, revAddr]
    omega
  exact congrArg (fun m => (s.setMem m).validateWin.validateRev) (Memory.storeElems_comm h.memWf hsep).symm

theorem TablesFit.fillRev_fillTw (h : TablesFit s) : s.fillRev.fillTw = s.fillTw.fillRev := by
  have hsep : twAddr 0 false + 8 * (twTable s.params s.lVal s.mVal).length ≤ revAddr 0 := by
    have := h.lengthM
    simp only [twTable_length, twAddr, revAddr, Bool.false_eq_true, ↓reduceIte]
    omega
  exact congrArg (fun m => (s.setMem m).validateTw.validateRev) (Memory.storeElems_comm h.memWf hsep).symm

/-- The three commands that fill one table each. -/
def IsGenerator (i : Instr) : Prop := i = .genwin ∨ i = .gentw ∨ i = .genrev

/-- The fill a generator does; no other command fills one table. -/
def State.fill (s : State) : Instr → State
  | .genwin => s.fillWin
  | .gentw  => s.fillTw
  | .genrev => s.fillRev
  | _       => s

theorem exec_genwin_of_two_le (hL : 2 ≤ s.lVal) : exec .genwin s = .next s.fillWin.complete := by
  obtain ⟨t, ht⟩ := exec_next .genwin s
  rcases exec_genwin_cases ht with ⟨hle, -⟩ | ⟨-, rfl⟩
  · omega
  · exact ht

theorem TablesFit.exec_generator (h : TablesFit s) (hi : IsGenerator i) :
    exec i s = .next (s.fill i).complete := by
  rcases hi with rfl | rfl | rfl
  · exact exec_genwin_of_two_le h.windowDefined
  · exact exec_gentw s
  · exact exec_genrev s

theorem TablesFit.complete (h : TablesFit s) : TablesFit s.complete :=
  { h with }

/-- A fill keeps the lengths, and its store keeps the canonical form. -/
theorem TablesFit.fill (h : TablesFit s) (hi : IsGenerator i) : TablesFit (s.fill i) := by
  rcases hi with rfl | rfl | rfl <;> exact { h with memWf := Memory.wf_storeElems h.memWf _ _ }

theorem TablesFit.fill_comm (h : TablesFit s) (hi : IsGenerator i) (hj : IsGenerator j) :
    (s.fill i).fill j = (s.fill j).fill i := by
  rcases hi with rfl | rfl | rfl
  · rcases hj with rfl | rfl | rfl
    · rfl
    · exact h.fillTw_fillWin.symm
    · exact h.fillRev_fillWin.symm
  · rcases hj with rfl | rfl | rfl
    · exact h.fillTw_fillWin
    · rfl
    · exact h.fillRev_fillTw.symm
  · rcases hj with rfl | rfl | rfl
    · exact h.fillRev_fillWin
    · exact h.fillRev_fillTw
    · rfl

theorem complete_fill_complete (s : State) (i : Instr) : (s.complete.fill i).complete = (s.fill i).complete := by
  cases i <;> rfl

/-! ### Running the generators in any order (R189) -/

theorem execAll_cons_of_next {t : State} (is : List Instr) (h : exec i s = .next t) :
    execAll (i :: is) s = execAll is t := by
  rw [execAll, h]

theorem TablesFit.execAll_cons (h : TablesFit s) (hi : IsGenerator i) (is : List Instr) :
    execAll (i :: is) s = execAll is (s.fill i).complete :=
  execAll_cons_of_next is (h.exec_generator hi)

theorem TablesFit.execAll_cons_cons (h : TablesFit s) (hi : IsGenerator i) (hj : IsGenerator j) (is : List Instr) :
    execAll (i :: j :: is) s = execAll is ((s.fill i).fill j).complete := by
  rw [h.execAll_cons hi, (h.fill hi).complete.execAll_cons hj, complete_fill_complete]

/-- Two adjacent generators may change places, so any rearrangement leaves the same state. -/
theorem TablesFit.execAll_perm {is js : List Instr} (hperm : is.Perm js) (hgen : ∀ i ∈ is, IsGenerator i)
    (h : TablesFit s) : execAll is s = execAll js s := by
  induction hperm generalizing s with
  | nil => rfl
  | cons i _ ih =>
    obtain ⟨hi, his⟩ := List.forall_mem_cons.mp hgen
    rw [h.execAll_cons hi, h.execAll_cons hi, ih his (h.fill hi).complete]
  | swap i j is =>
    obtain ⟨hj, hi, -⟩ := List.forall_mem_cons.mp hgen |>.imp_right List.forall_mem_cons.mp
    rw [h.execAll_cons_cons hj hi, h.execAll_cons_cons hi hj, h.fill_comm hj hi]
  | trans hperm _ ih ih' =>
    exact (ih hgen h).trans (ih' (fun i hi => hgen i (hperm.mem_iff.mpr hi)) h)

/-- The three generators in any order leave what the order of R187 leaves. -/
theorem TablesFit.execAll_generators (h : TablesFit s) {order : List Instr}
    (horder : order.Perm [.genwin, .gentw, .genrev]) :
    execAll order s = .next s.fillWin.fillTw.fillRev.complete := by
  have hgen : ∀ i ∈ order, IsGenerator i := fun i hi => by
    simpa only [IsGenerator, List.mem_cons, List.not_mem_nil, or_false] using horder.mem_iff.mp hi
  calc execAll order s
      = execAll [.genwin, .gentw, .genrev] s := h.execAll_perm horder hgen
    _ = execAll [.genrev] s.fillWin.fillTw.complete := h.execAll_cons_cons (.inl rfl) (.inr (.inl rfl)) _
    _ = .next s.fillWin.fillTw.fillRev.complete := rfl

end Fills

/-! ### Reading the three tables just made (spec/20_memory.md R68) -/

section Reads
variable {s : State} {i k : Nat} {v : Reg}

/-- An admitted read of a cell that has a value answers the value. -/
theorem guardedCell_eq_value {p : Prop} [Decidable p] {o : Option Reg} (hp : ¬ p) (ho : o = some v) :
    (if p then ReadResult.accessFault else .ofCell o) = .value v := by
  rw [if_neg hp, ho, ReadResult.ofCell]

theorem readWin_eq_value (hv : s.wv = true) (hi : i < s.lVal) (hc : s.winElem i = some v) : s.readWin i = .value v :=
  guardedCell_eq_value (by simp [hv, hi]) hc

theorem readTw_eq_value {im : Bool} (hv : s.tv = true) (hk : k < s.mVal) (hc : s.twElem k im = some v) :
    s.readTw k im = .value v :=
  guardedCell_eq_value (by simp [hv, hk]) hc

theorem readRev_eq_value (hv : s.rv = true) (hi : i < s.lVal) (hc : s.revElem i = some v) : s.readRev i = .value v :=
  guardedCell_eq_value (by simp [hv, hi]) hc

theorem TablesFit.fills_readWin (h : TablesFit s) (hi : i < s.lVal) :
    s.fillWin.fillTw.fillRev.complete.readWin i = .value (tc64 (numWin s.params s.lVal i)) := by
  have hi' : i < 2 ^ 24 := hi.trans_le h.lengthL
  refine readWin_eq_value rfl (by simpa using hi) ?_
  rw [State.complete_winElem, State.fillRev_winElem _ hi', State.fillTw_winElem _ hi', s.fillWin_winElem hi]

theorem TablesFit.fills_readTw (h : TablesFit s) (hk : k < s.mVal) :
    s.fillWin.fillTw.fillRev.complete.readTw k false = .value (tc64 (numTwre s.params s.lVal k)) ∧
      s.fillWin.fillTw.fillRev.complete.readTw k true = .value (tc64 (numTwim s.params s.lVal k)) := by
  have hkeep := s.fillWin.fillTw.fillRev_twElem (hk.trans_le h.lengthM)
  have hadmitted : k < s.fillWin.fillTw.fillRev.complete.mVal := by simpa using hk
  obtain ⟨hre, him⟩ := s.fillWin.fillTw_twElem (by simpa using hk)
  exact ⟨readTw_eq_value rfl hadmitted ((hkeep false).trans hre),
    readTw_eq_value rfl hadmitted ((hkeep true).trans him)⟩

theorem fills_readRev (hi : i < s.lVal) :
    s.fillWin.fillTw.fillRev.complete.readRev i = .value (BitVec.ofNat 64 (reverseBits i s.nVal)) :=
  s.fillWin.fillTw.fillRev_complete_readRev hi

end Reads

/-! ### An accepted exponent -/

section Exponent
variable {s : State} {n : Int}

theorem tablesFit_deriveSizes (s : State) {n : Nat} (h1 : 1 ≤ n) (hn : n ≤ 24) : TablesFit (s.deriveSizes n) := by
  obtain ⟨-, hL, hM⟩ := deriveSizes_sizes s hn
  rw [inputLength_eq] at hL
  rw [outputLength_eq] at hM
  have hlow : 2 ≤ 2 ^ n := Nat.le_self_pow (by omega) 2
  have hhigh : 2 ^ n ≤ 2 ^ 24 := Nat.pow_le_pow_right (by decide) hn
  exact ⟨by omega, by omega, by omega, Memory.wf_nil⟩

/-- `GENALL` with an accepted exponent is the three fills of the new lengths. -/
theorem exec_genall_of_le (hp : s.params.wf = true) (h1 : 1 ≤ n) (hn : n ≤ s.params.nmax) :
    exec (.genall n) s = .next (s.deriveSizes n.toNat).fillWin.fillTw.fillRev.complete := by
  obtain ⟨hN, hL, hM⟩ := deriveSizes_sizes s (n := n.toNat) (by have := (params_wf_iff.mp hp).2; omega)
  obtain ⟨t, ht⟩ := exec_next (.genall n) s
  rcases exec_genall_cases ht with ⟨hrej, -⟩ | ⟨-, -, rfl⟩
  · omega
  · rw [ht, State.storeAll_eq_fills _ hN hL hM]

theorem exec_derive_of_rejects (hn : n < 0 ∨ (s.params.nmax : Int) < n) :
    exec (.derive n) s = .next (s.raise .invalidExponent (cmdValue (.derive n))) := by
  rw [exec, execDerive, if_pos (deriveRejects_iff.mpr hn)]

end Exponent

/-! ### The statements -/

/-- Settles O24: an accepted exponent gives the three fills of its lengths, whose elements read back; any other gives
the fault entry. -/
theorem genallAllOrNothing : Obligations.GenallAllOrNothing := by
  unfold Obligations.GenallAllOrNothing
  intro n s hp
  by_cases hrej : n < 1 ∨ (s.params.nmax : Int) < n
  · exact ⟨_, exec_genall_of_rejects hrej, .inr ⟨hrej, rfl⟩⟩
  obtain ⟨h1, hn⟩ : 1 ≤ n ∧ n ≤ s.params.nmax := by omega
  have hn24 : n.toNat ≤ 24 := by
    have := (params_wf_iff.mp hp).2
    omega
  obtain ⟨hN, hL, hM⟩ := deriveSizes_sizes s hn24
  have hfit : TablesFit (s.deriveSizes n.toNat) := tablesFit_deriveSizes s (by omega) hn24
  refine ⟨_, exec_genall_of_le hp h1 hn, .inl ⟨h1, hn, rfl, rfl, rfl, rfl, ?_⟩⟩
  simp only [State.complete_lVal, State.complete_mVal, State.fillRev_lVal, State.fillRev_mVal, State.fillTw_lVal,
    State.fillTw_mVal, State.fillWin_lVal, State.fillWin_mVal]
  exact ⟨hL.trans (inputLength_eq _), hM.trans (outputLength_eq _), fun i => hfit.fills_readWin,
    fun k => hfit.fills_readTw, fun i hi => (fills_readRev hi).trans (by rw [hN])⟩

/-- Settles O25: after `DERIVE n` the generators commute, and in the order of R187 they are the three fills `GENALL n`
does; outside `1 .. NMAX` the operand tests select the outcomes. -/
theorem genallEqualsComponents : Obligations.GenallEqualsComponents := by
  unfold Obligations.GenallEqualsComponents
  refine ⟨fun n s order hp h1 hn horder => ?_, fun s => ?_, fun n s hrej => ?_⟩
  · have hfit : TablesFit (s.deriveSizes n.toNat) :=
      tablesFit_deriveSizes s (by omega) (by have := (params_wf_iff.mp hp).2; omega)
    calc execAll (.derive n :: order) s
        = execAll order (s.deriveSizes n.toNat).complete :=
          execAll_cons_of_next order (exec_derive_of_le (by omega) hn)
      _ = .next (s.deriveSizes n.toNat).fillWin.fillTw.fillRev.complete := hfit.complete.execAll_generators horder
      _ = exec (.genall n) s := (exec_genall_of_le hp h1 hn).symm
  · obtain ⟨t, ht, -, -, -, hdone, hwin, -⟩ := deriveZero s
    exact ⟨exec_genall_of_rejects (.inl zero_lt_one), t, ht, hdone, _, hwin, rfl, rfl⟩
  · exact ⟨exec_genall_of_rejects (by omega), exec_derive_of_rejects hrej⟩

end Sys2Proof.Machine
end

section
/-! SUPPORT and PROOFS for spec/60_exceptions.md: a value that decodes is the word of its command, which commands raise
`InvalidExponent`, and what a fault entry and a step in `FAULT` leave as they are. -/

namespace Sys2Proof.Machine

/-! ### A decoded value is the word of its command (spec/30_encoding.md R90 to R93, R112) -/

section Word
variable {v : Reg} {cmd : Command} {r : Row} {i : Instr}

/-- The word of a command carries its row's `OP` and its own `IMM`. -/
theorem encode_fields (i : Instr) :
    opField (encode i) = opField (row i.op).pattern ∧ immField (encode i) = i.imm := by
  have hword : Laws.WordFields.Statement i := by
    cases i with
    | derive n => exact Laws.WordFields.derive n
    | genwin => exact Laws.WordFields.genwin
    | gentw => exact Laws.WordFields.gentw
    | genrev => exact Laws.WordFields.genrev
    | genall n => exact Laws.WordFields.genall n
    | wsamp idx => exact Laws.WordFields.wsamp idx
    | twsamp idx => exact Laws.WordFields.twsamp idx
    | bitrev idx => exact Laws.WordFields.bitrev idx
  obtain ⟨hop, himm, -⟩ := hword
  exact ⟨hop, himm⟩

theorem instrOf_op (op : Op) (imm : BitVec 24) : (instrOf op imm).op = op := by cases op <;> rfl

/-- Assembling the operand loses no bit of `IMM`; format Z, which has no operand, admits only an empty one. -/
theorem instrOf_imm {op : Op} {imm : BitVec 24} (hz : (row op).format = .z → imm = 0#24) :
    (instrOf op imm).imm = imm := by
  cases op with
  | derive | genall => exact BitVec.ofInt_toInt
  | genwin | gentw | genrev => exact (hz rfl).symm
  | wsamp | twsamp | bitrev => exact (BitVec.ofNat_toNat 24 imm).trans (BitVec.setWidth_eq imm)

theorem encode_instrOf_of_selects (hr : r ∈ opcodeTable) (h : r.selects cmd = true) :
    encode (instrOf r.op (immField cmd)) = cmd := by
  have hrow : ∀ r ∈ opcodeTable, row r.op = r := by decide
  obtain ⟨hop, hz⟩ := (selects_iff hr).mp h
  obtain ⟨hop', himm'⟩ := encode_fields (instrOf r.op (immField cmd))
  rw [instrOf_op, hrow r hr] at hop'
  rw [instrOf_imm ((hrow r hr).symm ▸ hz)] at himm'
  exact eq_iff_fields.mpr ⟨hop'.trans hop.symm, himm'⟩

/-- A value with an empty upper half is its low half, extended with zeros. -/
theorem setWidth_lowHalf (h : v.extractLsb' 32 32 = 0#32) : (v.extractLsb' 0 32).setWidth 64 = v := by
  have hlt := upperHalf_eq_zero_iff.mp h
  apply BitVec.eq_of_toNat_eq
  rw [BitVec.toNat_setWidth, BitVec.extractLsb'_toNat]
  omega

/-- `FINFO` of a command that faults, its own word, is the value the host wrote (log 10). -/
theorem cmdValue_of_decode (h : decode v = .command i) : cmdValue i = v := by
  obtain ⟨hup, r, hr, hsel, rfl⟩ := decode_eq_command_iff.mp h
  rw [← immField_lowHalf, cmdValue, encode_instrOf_of_selects hr hsel, setWidth_lowHalf hup]

end Word

/-! ### The causes of `InvalidExponent` (spec/60_exceptions.md R203) -/

/-- `p` is the condition under which a command raises `InvalidExponent` if the command raises it where `p` holds and
keeps the cause where `p` fails. -/
theorem exec_raises_invalidExponent_iff {i : Instr} {s : State} {p : Prop} (hc : s.cause = .none)
    (hcases : ∀ t, exec i s = .next t → (p ∧ t.cause = .invalidExponent) ∨ (¬ p ∧ t.cause = s.cause)) :
    (∃ t, exec i s = .next t ∧ t.cause = .invalidExponent) ↔ p := by
  constructor
  · rintro ⟨t, ht, hcause⟩
    rcases hcases t ht with ⟨hp, -⟩ | ⟨-, hkept⟩
    · exact hp
    · rw [hkept, hc] at hcause
      cases hcause
  · intro hp
    obtain ⟨t, ht⟩ := exec_next i s
    rcases hcases t ht with ⟨-, hcause⟩ | ⟨hnp, -⟩
    · exact ⟨t, ht, hcause⟩
    · exact absurd hp hnp

/-! ### The statements -/

/-- Settles O8: a fault entry is `State.raise` with the value written, or, for a command that decodes, with its word,
which is that value. -/
theorem engineFaultWritesOnlyItsRecord : Obligations.EngineFaultWritesOnlyItsRecord := by
  unfold Obligations.EngineFaultWritesOnlyItsRecord
  intro v s t _ h hfault
  rcases engine_cases h with ⟨i, hi, hx⟩ | ⟨why, -, rfl⟩
  · rcases exec_cases hx with rfl | ⟨hdone, -⟩
    · exact ⟨.invalidExponent, .inr rfl, by rw [cmdValue_of_decode hi, State.raise]⟩
    · rw [hdone] at hfault
      cases hfault
  · exact ⟨.invalidInvocation, .inl rfl, rfl⟩

/-- Settles O10: in `FAULT` an operation that is no reset only answers, for a command is taken outside `FAULT` alone; a
reset gives `toReset` with some answer. -/
theorem faultIsLeftOnlyByReset : Obligations.FaultIsLeftOnlyByReset := by
  unfold Obligations.FaultIsLeftOnlyByReset
  intro s t op ops hf hs hx
  have hstep : hostStep op (s.setScript ops) = .next t := (step_cons hs).symm.trans hx
  refine ⟨fun hop => ?_, fun hop => ?_⟩
  · rcases hostStep_cases_of_not_resets hop hstep with ⟨r, rfl⟩ | ⟨v, u, -, hnf, -⟩
    · rfl
    · exact absurd hf hnf
  · obtain ⟨r, hr⟩ := hostStep_of_resets hop (s.setScript ops)
    cases hr.symm.trans hstep
    rfl

/-- Settles O9: the operand test of each command that has one is its listed condition; a command that completes keeps
the cause. -/
theorem invalidExponentCauses : Obligations.InvalidExponentCauses := by
  unfold Obligations.InvalidExponentCauses
  intro i s _ hc
  refine exec_raises_invalidExponent_iff hc fun t h => ?_
  cases i with
  | derive n =>
    rcases exec_derive_cases h with ⟨hrej, rfl⟩ | ⟨h0, hn, rfl⟩
    · exact .inl ⟨hrej, rfl⟩
    · exact .inr ⟨by omega, rfl⟩
  | genall n =>
    rcases exec_genall_cases h with ⟨hrej, rfl⟩ | ⟨h1, hn, rfl⟩
    · exact .inl ⟨hrej, rfl⟩
    · exact .inr ⟨by omega, rfl⟩
  | genwin =>
    rcases exec_genwin_cases h with ⟨hL, rfl⟩ | ⟨hL, rfl⟩
    · exact .inl ⟨hL, rfl⟩
    · exact .inr ⟨Nat.not_le.mpr hL, rfl⟩
  | wsamp idx =>
    rcases exec_wsamp_cases h with ⟨hL, rfl⟩ | ⟨hL, rfl⟩
    · exact .inl ⟨hL, rfl⟩
    · exact .inr ⟨Nat.not_le.mpr hL, rfl⟩
  | gentw => cases (exec_gentw s).symm.trans h; exact .inr ⟨not_false, rfl⟩
  | genrev => cases (exec_genrev s).symm.trans h; exact .inr ⟨not_false, rfl⟩
  | twsamp idx => cases (exec_twsamp idx s).symm.trans h; exact .inr ⟨not_false, rfl⟩
  | bitrev idx => cases (exec_bitrev idx s).symm.trans h; exact .inr ⟨not_false, rfl⟩

end Sys2Proof.Machine
end

section
/-! PROOFS for spec/70_reset_and_hazards.md: what the block is after `toReset`, and the statement about the two resets. -/

namespace Sys2Proof.Machine

/-! ### The block at reset (spec/10_state.md R50) -/

@[simp] theorem State.toReset_block (s : State) : s.toReset.block = { State.reset with params := s.params } := rfl

/-! ### The statements -/

/-- Settles O50: each reset answers `toReset` in every state, and the block does not depend on the answer. -/
theorem bothResetsHaveOneEffect : Obligations.BothResetsHaveOneEffect := by
  unfold Obligations.BothResetsHaveOneEffect
  intro s v hv
  refine ⟨s.toReset.respond .none, s.toReset.respond .ack, rfl, hostStep_ctrl_of_set hv s, ?_, ?_⟩
  · rw [State.respond_block, State.respond_block]
  · rw [State.respond_block, State.toReset_block]

end Sys2Proof.Machine
end

section
/-! SUPPORT and PROOFS for the round trip between commands and the values written to `CMD` (spec/30_encoding.md R93,
R94, R112). -/

namespace Sys2Proof.Machine

/-! ### An operand and its immediate (R93) -/

section Operand
variable {n : Int} {idx : Nat}

theorem signedImm_ofInt (h : exponentFits n = true) : signedImm (BitVec.ofInt 24 n) = n := by
  have := exponentFits_iff.mp h
  rw [signedImm, BitVec.toInt_ofInt, Int.bmod_eq_of_le] <;> omega

theorem unsignedImm_ofNat (h : indexFits idx = true) : unsignedImm (BitVec.ofNat 24 idx) = idx := by
  have := indexFits_iff.mp h
  rw [unsignedImm, BitVec.toNat_ofNat]
  omega

theorem exponentFits_signedImm (imm : BitVec 24) : exponentFits (signedImm imm) = true := by
  have hlow := imm.le_toInt
  have hhigh := imm.toInt_lt
  rw [exponentFits_iff, signedImm]
  omega

theorem indexFits_unsignedImm (imm : BitVec 24) : indexFits (unsignedImm imm) = true := by
  have := imm.isLt
  rw [indexFits_iff, unsignedImm]
  omega

/-- Every operand the decoder assembles lies in the range of its format. -/
theorem instrOf_wf (op : Op) (imm : BitVec 24) : (instrOf op imm).wf = true := by
  cases op with
  | derive | genall => exact exponentFits_signedImm imm
  | genwin | gentw | genrev => rfl
  | wsamp | twsamp | bitrev => exact indexFits_unsignedImm imm

/-- The immediate of a well-formed command gives its operand back. -/
theorem instrOf_op_imm {i : Instr} (h : i.wf = true) : instrOf i.op i.imm = i := by
  cases i with
  | derive n => exact congrArg Instr.derive (signedImm_ofInt h)
  | genall n => exact congrArg Instr.genall (signedImm_ofInt h)
  | genwin | gentw | genrev => rfl
  | wsamp idx => exact congrArg Instr.wsamp (unsignedImm_ofNat h)
  | twsamp idx => exact congrArg Instr.twsamp (unsignedImm_ofNat h)
  | bitrev idx => exact congrArg Instr.bitrev (unsignedImm_ofNat h)

end Operand

/-! ### The value of a command (R111, R112) -/

section Value
variable (i : Instr)

theorem row_mem_opcodeTable (op : Op) : row op ∈ opcodeTable := by cases op <;> decide

theorem row_op (op : Op) : (row op).op = op := by cases op <;> rfl

/-- A row of format Z has no operand, so its command has an empty `IMM`. -/
theorem imm_eq_zero_of_format_z {i : Instr} (h : (row i.op).format = .z) : i.imm = 0#24 := by
  cases i with
  | genwin | gentw | genrev => rfl
  | derive | genall | wsamp | twsamp | bitrev => cases h

theorem row_selects_encode : (row i.op).selects (encode i) = true := by
  obtain ⟨hop, himm⟩ := encode_fields i
  exact (selects_iff (row_mem_opcodeTable i.op)).mpr ⟨hop, fun hz => himm.trans (imm_eq_zero_of_format_z hz)⟩

theorem cmdValue_upperHalf : (cmdValue i).extractLsb' 32 32 = 0#32 := by
  rw [upperHalf_eq_zero_iff, cmdValue, BitVec.toNat_setWidth]
  omega

theorem cmdValue_lowHalf : (cmdValue i).extractLsb' 0 32 = encode i := by
  apply BitVec.eq_of_toNat_eq
  rw [cmdValue, BitVec.extractLsb'_toNat, BitVec.toNat_setWidth, Nat.shiftRight_zero]
  omega

end Value

/-! ### The statements -/

/-- Settles O2: the row of the command selects its word, whose `IMM` gives the operand back. -/
theorem decodeEncodeRoundTrip : Obligations.DecodeEncodeRoundTrip := by
  unfold Obligations.DecodeEncodeRoundTrip
  intro i hwf
  rw [decode_eq_command_iff, ← immField_lowHalf, cmdValue_lowHalf]
  refine ⟨cmdValue_upperHalf i, row i.op, row_mem_opcodeTable i.op, row_selects_encode i, ?_⟩
  rw [row_op, (encode_fields i).2, instrOf_op_imm hwf]

/-- Settles O3: the decoder assembles an operand in range, and the word of the command is the value. -/
theorem decodedValueIsItsEncoding : Obligations.DecodedValueIsItsEncoding := by
  unfold Obligations.DecodedValueIsItsEncoding
  intro v i h
  obtain ⟨-, r, -, -, rfl⟩ := decode_eq_command_iff.mp h
  exact ⟨instrOf_wf _ _, cmdValue_of_decode h⟩

/-- Settles O1: each word is run through the decoder. -/
theorem decodesSpecWords : Obligations.DecodesSpecWords := by
  unfold Obligations.DecodesSpecWords
  decide

end Sys2Proof.Machine
end

section
/-! SUPPORT and PROOFS for the commands (spec/41 to 45): the memory outside the table a fill stores, the cells read
from the tables just made, the sizes `DERIVE` writes, and the statements about single commands. -/

namespace Sys2Proof.Machine

/-! ### The cells outside a table just stored -/

section Outside
variable (s : State) {a : Nat}

/-- `GENWIN` writes no cell but `WIN[0] .. WIN[L-1]` (spec/42_window.md R151). -/
theorem State.fillWin_read_out (h : a < winAddr 0 ∨ winAddr s.lVal ≤ a) : s.fillWin.mem.read a = s.mem.read a := by
  refine Memory.read_storeElems_out ?_
  rwa [winTable_length, ← winAddr_eq]

/-- `GENREV` writes no cell but `REV[0] .. REV[L-1]` (spec/44_bit_reversal.md R171). -/
theorem State.fillRev_read_out (h : a < revAddr 0 ∨ revAddr s.lVal ≤ a) : s.fillRev.mem.read a = s.mem.read a := by
  refine Memory.read_storeElems_out ?_
  rwa [revTable_length, ← revAddr_eq]

end Outside

/-! ### The cells of the tables just made -/

section Cells
variable {s : State} {i k : Nat} {v : Reg}

/-- A table read that answers a value answers the value of the cell. -/
theorem cell_of_guardedCell_eq_value {p : Prop} [Decidable p] {o : Option Reg}
    (h : (if p then ReadResult.accessFault else .ofCell o) = .value v) : o = some v := by
  split at h
  · cases h
  · cases o with
    | none => cases h
    | some w => cases h; rfl

theorem winElem_of_readWin (h : s.readWin i = .value v) : s.winElem i = some v := cell_of_guardedCell_eq_value h

theorem twElem_of_readTw {im : Bool} (h : s.readTw k im = .value v) : s.twElem k im = some v :=
  cell_of_guardedCell_eq_value h

theorem revElem_of_readRev (h : s.readRev i = .value v) : s.revElem i = some v := cell_of_guardedCell_eq_value h

end Cells

/-! ### The defined window (spec/42_window.md R155) -/

theorem exec_wsamp_of_two_le {s : State} (hL : 2 ≤ s.lVal) (idx : Nat) :
    exec (.wsamp idx) s = .next (s.setResults (tc64 (numWin s.params s.lVal idx)) 0#64).complete := by
  rw [exec, execWsamp, if_neg (by rw [windowUndefined_iff]; omega)]

/-! ### The sizes `DERIVE` writes (spec/41_size_derivation.md R141) -/

theorem deriveSizes_eq (s : State) (n : Nat) : s.deriveSizes n = { s with
    regN := BitVec.ofNat 64 n, regL := BitVec.ofNat 64 (2 ^ n), regM := BitVec.ofNat 64 (2 ^ n / 2),
    wv := false, tv := false, rv := false, mem := [] } := by
  rw [← outputLength_eq, ← inputLength_eq]
  rfl

/-! ### The statements -/

/-- Settles O15: the fill stores the `L` samples from `WIN[0]` on and sets `WV`. -/
theorem genwinCompletes : Obligations.GenwinCompletes := by
  unfold Obligations.GenwinCompletes
  intro s hL
  exact ⟨_, exec_genwin_of_two_le hL, fun _ => s.fillWin_winElem, rfl, fun _ => s.fillWin_read_out⟩

/-- Settles O18: the fill stores the `M` pairs from `TW[0]` on and sets `TV`. -/
theorem gentwCompletes : Obligations.GentwCompletes := by
  unfold Obligations.GentwCompletes
  intro s
  exact ⟨_, exec_gentw s, fun _ => s.fillTw_twElem, rfl, fun _ => s.fillTw_complete_read_out⟩

/-- Settles O21: the fill stores the `L` reversed indexes from `REV[0]` on and sets `RV`. -/
theorem genrevCompletes : Obligations.GenrevCompletes := by
  unfold Obligations.GenrevCompletes
  intro s
  exact ⟨_, exec_genrev s, fun _ => s.fillRev_revElem, rfl, fun _ => s.fillRev_read_out⟩

/-- Settles O22: the engine reads the bits of `idx` below `N` only. -/
theorem bitrevCompletes : Obligations.BitrevCompletes := by
  unfold Obligations.BitrevCompletes
  intro idx s
  refine ⟨exec_bitrev idx s, ?_⟩
  rw [exec_bitrev, exec_bitrev, reverseBits_mod]

/-- Settles O23: `DERIVE` empties the memory, and the three fills of the new lengths store nothing outside their
tables. -/
theorem genallCompletes : Obligations.GenallCompletes := by
  unfold Obligations.GenallCompletes
  intro n s hp h1 hn
  have hn24 : n ≤ 24 := hn.trans (params_wf_iff.mp hp).2
  obtain ⟨hN, hL, hM⟩ := deriveSizes_sizes s hn24
  rw [inputLength_eq] at hL
  rw [outputLength_eq] at hM
  have hfit := tablesFit_deriveSizes s h1 hn24
  have hmade := exec_genall_of_le hp (n := n) (by exact_mod_cast h1) (by exact_mod_cast hn)
  rw [Int.toNat_natCast] at hmade
  refine ⟨_, hmade, ?_, fun i hi => ⟨?_, ?_⟩, fun k hk => ?_, fun a hwin htw hrev => ?_⟩
  · rw [deriveSizes_eq]
    rfl
  · have := winElem_of_readWin (hfit.fills_readWin (hi.trans_eq hL.symm))
    rwa [hL] at this
  · have := revElem_of_readRev (fills_readRev (hi.trans_eq hL.symm))
    rwa [hN] at this
  · obtain ⟨hre, him⟩ := hfit.fills_readTw (hk.trans_eq hM.symm)
    rw [hL] at hre him
    exact ⟨twElem_of_readTw hre, twElem_of_readTw him⟩
  · set t := s.deriveSizes n
    have hrevOut : a < revAddr 0 ∨ revAddr t.fillWin.fillTw.lVal ≤ a := by
      rw [State.fillTw_lVal, State.fillWin_lVal, hL]
      omega
    have htwOut : a < twAddr 0 false ∨ twAddr t.fillWin.mVal false ≤ a := by
      rw [State.fillWin_mVal, hM]
      omega
    have hwinOut : a < winAddr 0 ∨ winAddr t.lVal ≤ a := by
      rw [hL]
      omega
    calc t.fillWin.fillTw.fillRev.mem.read a
        = t.fillWin.fillTw.mem.read a := State.fillRev_read_out _ hrevOut
      _ = t.fillWin.mem.read a := State.fillTw_complete_read_out _ htwOut
      _ = t.mem.read a := State.fillWin_read_out _ hwinOut
      _ = none := rfl

/-- Settles O12: the operand test accepts, and the sizes are written as `deriveSizes_eq` says. -/
theorem deriveCompletes : Obligations.DeriveCompletes := by
  unfold Obligations.DeriveCompletes
  intro n s hn
  rw [exec_derive_of_le (Int.natCast_nonneg n) (by exact_mod_cast hn), Int.toNat_natCast, deriveSizes_eq]
  rfl

/-- Settles O13: the operand test, whose own name is `deriveRejects`, selects `State.raise`, which writes the fault
record. -/
theorem deriveRejectsExponent : Obligations.DeriveRejects := by
  unfold Obligations.DeriveRejects
  exact fun n s hn => exec_derive_of_rejects hn

/-- Settles O17: the operand test accepts, and the result registers are written. -/
theorem wsampCompletes : Obligations.WsampCompletes := by
  unfold Obligations.WsampCompletes
  exact fun idx s hL => exec_wsamp_of_two_le hL idx

/-- Settles O20: `TWSAMP` has no operand test and writes the result registers. -/
theorem twsampCompletes : Obligations.TwsampCompletes := by
  unfold Obligations.TwsampCompletes
  exact exec_twsamp

/-- Settles O60: a completed `GENALL` sets the three flags and leaves the clear cause, which makes `STATUS` 0x1D; any
other exponent enters `FAULT`. -/
theorem wholeToolRunEnds : Obligations.WholeToolRunEnds := by
  unfold Obligations.WholeToolRunEnds
  intro n s _ hc
  obtain ⟨t, ht⟩ := exec_next (.genall n) s
  refine ⟨t, ht, ?_⟩
  rcases exec_genall_cases ht with ⟨hrej, rfl⟩ | ⟨h1, hn, rfl⟩
  · exact ⟨fun hacc => by omega, fun _ => ⟨rfl, rfl, rfl⟩⟩
  · refine ⟨fun _ => ⟨rfl, ?_, rfl⟩, fun hrej => by omega⟩
    simp [State.statusWord, State.storeAll_eq, hc, RunState.code, Cause.code, flagBit]

end Sys2Proof.Machine
end

section
/-! SUPPORT and PROOFS for the whole machine (spec/10_state.md section 7): the memory lists a byte exactly where a
valid table has one, and every step keeps the model's invariant. -/

namespace Sys2Proof.Machine

/-! ### The memory lists exactly the bytes of the valid tables (log 6) -/

section Cells
variable {s t : State} {a : Nat}

/-- The bytes with a value after a store: those stored, and those that had one. -/
theorem Memory.read_storeElems_isSome_iff {m : Memory} {base stop a : Nat} {es : List Reg}
    (hstop : stop = base + 8 * es.length) :
    ((m.storeElems base es).read a).isSome = true ↔ (base ≤ a ∧ a < stop) ∨ (m.read a).isSome = true := by
  by_cases ha : base ≤ a ∧ a < stop
  · exact iff_of_true (Memory.read_storeElems_isSome ha.1 (hstop ▸ ha.2)) (.inl ha)
  · rw [Memory.read_storeElems_out (by omega), or_iff_right ha]

theorem State.fillWin_tableByte : s.fillWin.tableByte a ↔ (winAddr 0 ≤ a ∧ a < winAddr s.lVal) ∨ s.tableByte a := by
  have hflags : s.fillWin.wv = true ∧ s.fillWin.tv = s.tv ∧ s.fillWin.rv = s.rv := ⟨rfl, rfl, rfl⟩
  simp only [State.tableByte, hflags, State.fillWin_lVal, State.fillWin_mVal, true_and]
  tauto

theorem State.fillTw_tableByte :
    s.fillTw.tableByte a ↔ (twAddr 0 false ≤ a ∧ a < twAddr s.mVal false) ∨ s.tableByte a := by
  have hflags : s.fillTw.wv = s.wv ∧ s.fillTw.tv = true ∧ s.fillTw.rv = s.rv := ⟨rfl, rfl, rfl⟩
  simp only [State.tableByte, hflags, State.fillTw_lVal, State.fillTw_mVal, true_and]
  tauto

theorem State.fillRev_tableByte : s.fillRev.tableByte a ↔ (revAddr 0 ≤ a ∧ a < revAddr s.lVal) ∨ s.tableByte a := by
  have hflags : s.fillRev.wv = s.wv ∧ s.fillRev.tv = s.tv ∧ s.fillRev.rv = true := ⟨rfl, rfl, rfl⟩
  simp only [State.tableByte, hflags, State.fillRev_lVal, State.fillRev_mVal, true_and]
  tauto

/-- The two clauses of `Inv` about the memory. -/
structure CellsExact (s : State) : Prop where
  memWf    : Memory.wf s.mem
  memExact : ∀ a, (s.mem.read a).isSome = true ↔ s.tableByte a

/-- An empty memory is exact where no table is valid. -/
theorem CellsExact.of_empty (hm : s.mem = []) (hw : s.wv = false) (ht : s.tv = false) (hr : s.rv = false) :
    CellsExact s where
  memWf := hm ▸ Memory.wf_nil
  memExact a := by simp [hm, State.tableByte, hw, ht, hr]

theorem CellsExact.raise (h : CellsExact s) (c : Cause) (v : Reg) : CellsExact (s.raise c v) := { h with }

theorem CellsExact.setResults (h : CellsExact s) (r0 r1 : Reg) : CellsExact (s.setResults r0 r1) := { h with }

theorem CellsExact.complete (h : CellsExact s) : CellsExact s.complete := { h with }

theorem CellsExact.deriveSizes (s : State) (n : Nat) : CellsExact (s.deriveSizes n) :=
  .of_empty (s.deriveSizes_mem n) (s.deriveSizes_wv n) (s.deriveSizes_tv n) (s.deriveSizes_rv n)

theorem CellsExact.fillWin (h : CellsExact s) : CellsExact s.fillWin where
  memWf := Memory.wf_storeElems h.memWf _ _
  memExact a := by
    rw [State.fillWin_tableByte, ← h.memExact a]
    exact Memory.read_storeElems_isSome_iff (by rw [winTable_length, winAddr_eq])

theorem CellsExact.fillTw (h : CellsExact s) : CellsExact s.fillTw where
  memWf := Memory.wf_storeElems h.memWf _ _
  memExact a := by
    rw [State.fillTw_tableByte, ← h.memExact a]
    exact Memory.read_storeElems_isSome_iff (by simp only [twTable_length, twAddr]; omega)

theorem CellsExact.fillRev (h : CellsExact s) : CellsExact s.fillRev where
  memWf := Memory.wf_storeElems h.memWf _ _
  memExact a := by
    rw [State.fillRev_tableByte, ← h.memExact a]
    exact Memory.read_storeElems_isSome_iff (by rw [revTable_length, revAddr_eq])

theorem CellsExact.of_exec {i : Instr} (h : CellsExact s) (hp : s.params.wf = true) (hx : exec i s = .next t) :
    CellsExact t := by
  cases i with
  | derive n =>
    rcases exec_derive_cases hx with ⟨-, rfl⟩ | ⟨-, -, rfl⟩
    · exact h.raise _ _
    · exact (CellsExact.deriveSizes s _).complete
  | genwin =>
    rcases exec_genwin_cases hx with ⟨-, rfl⟩ | ⟨-, rfl⟩
    · exact h.raise _ _
    · exact h.fillWin.complete
  | gentw =>
    cases (exec_gentw s).symm.trans hx
    exact h.fillTw.complete
  | genrev =>
    cases (exec_genrev s).symm.trans hx
    exact h.fillRev.complete
  | genall n =>
    rcases exec_genall_cases hx with ⟨-, rfl⟩ | ⟨h1, hn, -⟩
    · exact h.raise _ _
    · cases (exec_genall_of_le hp h1 hn).symm.trans hx
      exact (CellsExact.deriveSizes s _).fillWin.fillTw.fillRev.complete
  | wsamp idx =>
    rcases exec_wsamp_cases hx with ⟨-, rfl⟩ | ⟨-, rfl⟩
    · exact h.raise _ _
    · exact (h.setResults _ _).complete
  | twsamp idx =>
    cases (exec_twsamp idx s).symm.trans hx
    exact (h.setResults _ _).complete
  | bitrev idx =>
    cases (exec_bitrev idx s).symm.trans hx
    exact (h.setResults _ _).complete

theorem CellsExact.of_engine {v : Reg} (h : CellsExact s) (hp : s.params.wf = true) (hx : engine v s = .next t) :
    CellsExact t := by
  rcases engine_cases hx with ⟨i, -, hi⟩ | ⟨-, -, rfl⟩
  · exact h.of_exec hp hi
  · exact h.raise _ _

end Cells

/-! ### Every step keeps the whole invariant -/

section Invariant
variable {s t : State}

/-- The engine records no `IOFailure` and ends `DONE` or `FAULT` (spec/60_exceptions.md R204, spec/10_state.md R41). -/
theorem engine_record {v : Reg} (hc : s.cause ≠ .ioFailure) (hx : engine v s = .next t) :
    t.cause ≠ .ioFailure ∧ t.runState ≠ .idle := by
  rcases engine_cases hx with ⟨i, -, hi⟩ | ⟨-, -, rfl⟩
  · rcases exec_cases hi with rfl | ⟨hdone, hcause, -⟩
    · simp
    · simp [hdone, hcause, hc]
  · simp

theorem Inv.respond (h : Inv s) (r : PortResp) : Inv (s.respond r) :=
  { h with
    toSpecInv := h.toSpecInv.respond r
    idleReset := fun hidle => congrArg (fun u => u.respond r) (h.idleReset hidle) }

theorem Inv.setScript (h : Inv s) (ops : List HostOp) : Inv (s.setScript ops) :=
  { h with
    toSpecInv := h.toSpecInv.setScript ops
    idleReset := fun hidle => congrArg (fun u => u.setScript ops) (h.idleReset hidle) }

theorem Inv.toReset (hp : s.params.wf = true) : Inv s.toReset :=
  { toSpecInv := SpecInv.toReset hp
    noIoFault := by simp
    memWf := Memory.wf_nil
    memExact := (CellsExact.of_empty (s := s.toReset) rfl rfl rfl rfl).memExact
    idleReset := fun _ => rfl }

theorem Inv.of_engine {v : Reg} (h : Inv s) (hf : s.runState ≠ .fault) (hx : engine v s = .next t) : Inv t := by
  obtain ⟨hcause, hidle⟩ := engine_record h.noIoFault hx
  obtain ⟨hwf, hexact⟩ := (CellsExact.mk h.memWf h.memExact).of_engine h.params hx
  exact ⟨h.toSpecInv.of_engine hf hx, hcause, hwf, hexact, fun hi => absurd hi hidle⟩

theorem Inv.of_hostStep {op : HostOp} (h : Inv s) (hx : hostStep op s = .next t) : Inv t := by
  rcases hostStep_cases hx with ⟨r, rfl⟩ | ⟨r, rfl⟩ | ⟨v, u, -, hf, hu, rfl⟩
  · exact h.respond r
  · exact (Inv.toReset h.params).respond r
  · exact (h.of_engine hf hu).respond .ack

theorem Inv.of_step (h : Inv s) (hx : step s = .next t) : Inv t := by
  cases hs : s.script with
  | nil =>
    cases (step_idle hs).symm.trans hx
    exact h
  | cons op ops => exact (h.setScript ops).of_hostStep ((step_cons hs).symm.trans hx)

end Invariant

/-! ### The statements -/

/-- Settles O30: the reset state is a block at reset with admissible parameters. -/
theorem resetMeetsInvariants : Obligations.ResetMeetsInvariants := by
  unfold Obligations.ResetMeetsInvariants
  exact Inv.toReset (s := State.reset) (by decide)

/-- Settles O32: every named update keeps the exact memory, the engine records no `IOFailure` and never ends `IDLE`, and
a step is an answer, a reset or a command. -/
theorem stepKeepsInvariants : Obligations.StepKeepsInvariants := by
  unfold Obligations.StepKeepsInvariants
  exact fun _ _ => Inv.of_step

/-- Settles O39: with an empty script the step is the identity. -/
theorem idleBlockKeepsState : Obligations.IdleBlockKeepsState := by
  unfold Obligations.IdleBlockKeepsState
  exact fun _ => step_idle

end Sys2Proof.Machine
end

section
/-! SUPPORT and PROOFS for the host port (spec/20_memory.md): what an admitted read gives in each region, that no read
is stopped for want of a value, the byte lanes of an element, and the statements about reads. -/

namespace Sys2Proof.Machine

/-! ### Table reads (spec/20_memory.md R68) -/

section Reads
variable {s : State} {addr : PortAddr} {width i k : Nat}

theorem portRead_win (hs : shapeOk addr width = true) (hr : regionOf addr = 1) :
    s.portRead addr width = s.readWin (offsetOf addr / 8) := by
  simp [State.portRead, hs, hr]

theorem portRead_tw (hs : shapeOk addr width = true) (hr : regionOf addr = 2) :
    s.portRead addr width = s.readTw (offsetOf addr / 16) (decide (offsetOf addr / 8 % 2 = 1)) := by
  simp [State.portRead, hs, hr]

theorem portRead_rev (hs : shapeOk addr width = true) (hr : regionOf addr = 3) :
    s.portRead addr width = s.readRev (offsetOf addr / 8) := by
  simp [State.portRead, hs, hr]

theorem portRead_csr (hs : shapeOk addr width = true) (hr : regionOf addr = 0) :
    s.portRead addr width = s.readCsr (offsetOf addr) := by
  simp [State.portRead, hs, hr]

/-- A guarded read of a cell whose value is known wherever the guard admits it. -/
theorem guardedCell_eq {p : Prop} [Decidable p] {o : Option Reg} {v : Reg} (h : ¬ p → o = some v) :
    (if p then ReadResult.accessFault else .ofCell o) = if p then .accessFault else .value v := by
  split
  next => rfl
  next hp => rw [h hp, ReadResult.ofCell]

theorem SpecInv.readWin_eq (h : SpecInv s) (i : Nat) : s.readWin i =
    if s.wv = false ∨ s.lVal ≤ i then .accessFault else .value (tc64 (numWin s.params s.lVal i)) := by
  refine guardedCell_eq fun hp => ?_
  obtain ⟨hv, hi⟩ := not_or.mp hp
  exact h.winTable (Bool.of_not_eq_false hv) i (not_le.mp hi)

theorem SpecInv.readTw_eq (h : SpecInv s) (k : Nat) (im : Bool) : s.readTw k im =
    if s.tv = false ∨ s.mVal ≤ k then .accessFault
    else .value (tc64 (if im then numTwim s.params s.lVal k else numTwre s.params s.lVal k)) := by
  refine guardedCell_eq fun hp => ?_
  obtain ⟨hv, hk⟩ := not_or.mp hp
  obtain ⟨hre, him⟩ := h.twTable (Bool.of_not_eq_false hv) k (not_le.mp hk)
  cases im with
  | false => exact hre
  | true => exact him

theorem SpecInv.readRev_eq (h : SpecInv s) (i : Nat) : s.readRev i =
    if s.rv = false ∨ s.lVal ≤ i then .accessFault else .value (BitVec.ofNat 64 (reverseBits i s.nVal)) := by
  refine guardedCell_eq fun hp => ?_
  obtain ⟨hv, hi⟩ := not_or.mp hp
  exact h.revTable (Bool.of_not_eq_false hv) i (not_le.mp hi)

/-- In a state that meets R51 an admitted read finds its element, so the model's own fault is not raised (log 7). -/
theorem SpecInv.portRead_ne_unspecified (h : SpecInv s) (addr : PortAddr) (width : Nat) :
    s.portRead addr width ≠ .unspecified := by
  cases hs : shapeOk addr width with
  | false => simp [State.portRead, hs]
  | true =>
    have hlt := regionOf_lt addr
    interval_cases hr : regionOf addr
    · rw [portRead_csr hs hr, State.readCsr]
      split <;> nofun
    · rw [portRead_win hs hr, h.readWin_eq]
      split <;> nofun
    · rw [portRead_tw hs hr, h.readTw_eq]
      split <;> nofun
    · rw [portRead_rev hs hr, h.readRev_eq]
      split <;> nofun

theorem answerRead_next {r : ReadResult} (hr : r ≠ .unspecified) (s : State) : ∃ t, answerRead r s = .next t := by
  cases r with
  | value v => exact ⟨_, rfl⟩
  | accessFault => exact ⟨_, rfl⟩
  | unspecified => exact absurd rfl hr

theorem SpecInv.hostStep_next (h : SpecInv s) (op : HostOp) : ∃ t, hostStep op s = .next t := by
  cases op with
  | read addr width => exact answerRead_next (h.portRead_ne_unspecified addr width) s
  | write addr width v => exact portWrite_next addr width v s
  | hardReset => exact ⟨_, rfl⟩

theorem twAddr_eq (k : Nat) (im : Bool) : twAddr k im = 0x10000000 + 16 * k + 8 * im.toNat := by cases im <;> rfl

theorem toNat_decide_odd (n : Nat) : (decide (n % 2 = 1)).toNat = n % 2 := by
  rcases Nat.mod_two_eq_zero_or_one n with h | h
  · simp [h]
  · simp [h]

/-- A table read that answers a value answers the element at its own port address. -/
theorem read64_of_portRead {v : Reg} (hr : regionOf addr ≠ 0) (h : s.portRead addr width = .value v) :
    s.mem.read64 addr.toNat = some v := by
  cases hs : shapeOk addr width with
  | false => simp [State.portRead, hs] at h
  | true =>
    have halign : addr.toNat % 8 = 0 := (shapeOk_iff.mp hs).2
    have hlt := regionOf_lt addr
    interval_cases hreg : regionOf addr
    · exact absurd rfl hr
    · rw [portRead_win hs hreg] at h
      have haddr : winAddr (offsetOf addr / 8) = addr.toNat := by
        simp only [regionOf, offsetOf, winAddr] at hreg ⊢
        omega
      exact haddr ▸ winElem_of_readWin h
    · rw [portRead_tw hs hreg] at h
      have haddr : twAddr (offsetOf addr / 16) (decide (offsetOf addr / 8 % 2 = 1)) = addr.toNat := by
        rw [twAddr_eq, toNat_decide_odd]
        simp only [regionOf, offsetOf] at hreg ⊢
        omega
      exact haddr ▸ twElem_of_readTw h
    · rw [portRead_rev hs hreg] at h
      have haddr : revAddr (offsetOf addr / 8) = addr.toNat := by
        simp only [regionOf, offsetOf, revAddr] at hreg ⊢
        omega
      exact haddr ▸ revElem_of_readRev h

end Reads

/-! ### The port addresses of the tables (R62, R63) -/

section Addresses
variable {i k : Nat}

/-- The fields of a port address that fits its 29 bits. -/
theorem fields_ofNat {a : Nat} (ha : a < 2 ^ 29) :
    regionOf (BitVec.ofNat 29 a) = a / 2 ^ 27 ∧ offsetOf (BitVec.ofNat 29 a) = a % 2 ^ 27 ∧
      (shapeOk (BitVec.ofNat 29 a) 8 = true ↔ a % 8 = 0) := by
  simp only [regionOf, offsetOf, shapeOk_iff, BitVec.toNat_ofNat, Nat.mod_eq_of_lt ha, true_and, and_self]

theorem portRead_winAddr (s : State) (hi : i < 2 ^ 24) :
    s.portRead (BitVec.ofNat 29 (winAddr i)) 8 = s.readWin i := by
  obtain ⟨hreg, hoff, hs⟩ := fields_ofNat (a := winAddr i) (by rw [winAddr]; omega)
  rw [portRead_win (hs.mpr (by rw [winAddr]; omega)) (by rw [hreg, winAddr]; omega), hoff]
  congr 1
  rw [winAddr]
  omega

theorem portRead_twAddr (s : State) (hk : k < 2 ^ 23) (im : Bool) :
    s.portRead (BitVec.ofNat 29 (twAddr k im)) 8 = s.readTw k im := by
  have haddr := twAddr_eq k im
  have him := im.toNat_lt
  obtain ⟨hreg, hoff, hs⟩ := fields_ofNat (a := twAddr k im) (by omega)
  have hhalf : decide (twAddr k im % 2 ^ 27 / 8 % 2 = 1) = im := by
    rw [haddr]
    cases im with
    | false => exact decide_eq_false (by rw [Bool.toNat_false]; omega)
    | true => exact decide_eq_true (by rw [Bool.toNat_true]; omega)
  rw [portRead_tw (hs.mpr (by omega)) (by omega), hoff, hhalf]
  congr 1
  omega

theorem portRead_revAddr (s : State) (hi : i < 2 ^ 24) :
    s.portRead (BitVec.ofNat 29 (revAddr i)) 8 = s.readRev i := by
  obtain ⟨hreg, hoff, hs⟩ := fields_ofNat (a := revAddr i) (by rw [revAddr]; omega)
  rw [portRead_rev (hs.mpr (by rw [revAddr]; omega)) (by rw [hreg, revAddr]; omega), hoff]
  congr 1
  rw [revAddr]
  omega

end Addresses

/-! ### The byte lanes of an element (R64) -/

section Lanes

/-- The bytes read are the readings of their addresses. -/
theorem Memory.readBytes_eq_some {m : Memory} {a k : Nat} {bs : List Byte} (h : m.readBytes a k = some bs) :
    bs.length = k ∧ ∀ j < k, m.read (a + j) = bs[j]? := by
  induction k generalizing a bs with
  | zero =>
    cases h
    exact ⟨rfl, by simp⟩
  | succ k ih =>
    rw [Memory.readBytes] at h
    split at h
    next b bs' hb hbs =>
      cases h
      obtain ⟨hlen, hread⟩ := ih hbs
      refine ⟨by rw [List.length_cons, hlen], fun j hj => ?_⟩
      cases j with
      | zero => exact hb
      | succ j =>
        rw [List.getElem?_cons_succ, ← hread j (by omega)]
        congr 1
        omega
    next => cases h

/-- Lane 0 of a value is its first byte. -/
theorem ofBytes_cons_lane_zero (b : Byte) (bs : List Byte) : (ofBytes (b :: bs)).extractLsb' 0 8 = b := by
  apply BitVec.eq_of_getLsbD_eq
  intro i hi
  have hi64 : i < 64 := by omega
  simp [ofBytes, hi, hi64]

/-- The other lanes are those of the value of the other bytes. -/
theorem ofBytes_cons_lane_succ (b : Byte) (bs : List Byte) {j : Nat} (hj : j + 1 < 8) :
    (ofBytes (b :: bs)).extractLsb' (8 * (j + 1)) 8 = (ofBytes bs).extractLsb' (8 * j) 8 := by
  apply BitVec.eq_of_getLsbD_eq
  intro i hi
  have hlow : ¬ 8 * (j + 1) + i < 8 := by omega
  have hi64 : 8 * (j + 1) + i < 64 := by omega
  have hb : b.getLsbD (8 * (j + 1) + i) = false := BitVec.getLsbD_of_ge _ _ (by omega)
  have hshift : 8 * (j + 1) + i - 8 = 8 * j + i := by omega
  simp only [BitVec.getLsbD_extractLsb', ofBytes, BitVec.getLsbD_or, BitVec.getLsbD_setWidth,
    BitVec.getLsbD_shiftLeft, hi, hi64, hlow, hb, hshift, decide_true, decide_false, Bool.not_false, Bool.true_and,
    Bool.and_false, Bool.false_or]

/-- Lane `j` of the value of at most eight bytes is byte `j`. -/
theorem ofBytes_lane {bs : List Byte} {j : Nat} (hlen : bs.length ≤ 8) (hj : j < bs.length) :
    bs[j]? = some ((ofBytes bs).extractLsb' (8 * j) 8) := by
  induction bs generalizing j with
  | nil => cases hj
  | cons b bs ih =>
    rw [List.length_cons] at hlen hj
    cases j with
    | zero => rw [List.getElem?_cons_zero, Nat.mul_zero, ofBytes_cons_lane_zero]
    | succ j => rw [List.getElem?_cons_succ, ih (by omega) (by omega), ofBytes_cons_lane_succ b bs (by omega)]

/-- The lanes of an element are the bytes at its address and the seven after it. -/
theorem Memory.read_lane_of_read64 {m : Memory} {a j : Nat} {v : Reg} (h : m.read64 a = some v) (hj : j < 8) :
    m.read (a + j) = some (v.extractLsb' (8 * j) 8) := by
  obtain ⟨bs, hbs, rfl⟩ := Option.map_eq_some_iff.mp h
  obtain ⟨hlen, hread⟩ := Memory.readBytes_eq_some hbs
  rw [hread j hj, ofBytes_lane hlen.le (by omega)]

end Lanes

/-! ### The statements -/

/-- Settles O33: an admitted read finds its element, and a write and a reset answer in every state. -/
theorem everyStepHasANextState : Obligations.EveryStepHasANextState := by
  unfold Obligations.EveryStepHasANextState
  intro s h
  cases hs : s.script with
  | nil => exact ⟨s, step_idle hs⟩
  | cons op ops =>
    rw [step_cons hs]
    exact (h.setScript ops).hostStep_next op

/-- Settles O44: an address of an aperture reads its own element, which R51 (e) and (f) give a value. -/
theorem tableReads : Obligations.TableReads := by
  unfold Obligations.TableReads
  intro s h
  refine ⟨fun i hi => ?_, fun k hk => ⟨?_, ?_⟩, fun i hi => ?_⟩
  · rw [portRead_winAddr s hi, h.readWin_eq]
  · rw [portRead_twAddr s hk, h.readTw_eq]
    rfl
  · rw [portRead_twAddr s hk, h.readTw_eq]
    rfl
  · rw [portRead_revAddr s hi, h.readRev_eq]

/-- Settles O45: the value is the element at the address, whose lanes are the bytes from there on. -/
theorem littleEndianByteLanes : Obligations.LittleEndianByteLanes := by
  unfold Obligations.LittleEndianByteLanes
  exact fun s addr v hr h j hj => Memory.read_lane_of_read64 (read64_of_portRead hr h) hj

end Sys2Proof.Machine
end

section
/-! SUPPORT and PROOFS for the events of one step (spec/10_state.md sections 2, 5 and 6): which write the lengths, the
flags and `STATE`, that a valid table does not change; and the statements about one step, one read and `STATUS`. -/

namespace Sys2Proof.Machine

/-! ### What every step leaves: the parameters -/

section Params
variable {s t : State}

theorem engine_params {v : Reg} (h : engine v s = .next t) : t.params = s.params := by
  rcases engine_cases h with ⟨i, -, hi⟩ | ⟨-, -, rfl⟩
  · rcases exec_cases hi with rfl | ⟨-, -, -, hp, -⟩
    · rfl
    · exact hp
  · rfl

theorem hostStep_params {op : HostOp} (h : hostStep op s = .next t) : t.params = s.params := by
  rcases hostStep_cases h with ⟨r, rfl⟩ | ⟨r, rfl⟩ | ⟨v, u, -, -, hu, rfl⟩
  · rfl
  · rfl
  · rw [State.respond_params, engine_params hu]

theorem step_params (h : step s = .next t) : t.params = s.params := by
  cases hs : s.script with
  | nil =>
    cases (step_idle hs).symm.trans h
    rfl
  | cons op ops => exact hostStep_params (s := s.setScript ops) ((step_cons hs).symm.trans h)

end Params

/-! ### Tables of one exponent (R34) -/

section SameExponent
variable {s t : State}

/-- Two states that meet R51 with the same parameters and exponent have the same lengths. -/
theorem SpecInv.lengths_eq (hs : SpecInv s) (ht : SpecInv t) (hN : t.nVal = s.nVal) :
    t.lVal = s.lVal ∧ t.mVal = s.mVal := by
  have hL : t.lVal = s.lVal := by rw [ht.lengthL, hs.lengthL, hN]
  exact ⟨hL, by rw [ht.lengthM, hs.lengthM, hL]⟩

theorem SpecInv.two_le_lVal_of_wv (h : SpecInv s) (hv : s.wv = true) : 2 ≤ s.lVal := by
  rw [h.lengthL]
  exact Nat.le_self_pow (Nat.one_le_iff_ne_zero.mp (h.winExp hv)) 2

end SameExponent

/-! ### Which events write the lengths (R24) -/

section Sizes
variable {s t : State}

/-- The three registers of the size derivation are as before. -/
def SizesKept (s t : State) : Prop := t.regN = s.regN ∧ t.regL = s.regL ∧ t.regM = s.regM

/-- An accepted exponent in the register `N`. -/
theorem ofNat_toNat_eq_ofInt {n : Int} (h : 0 ≤ n) : BitVec.ofNat 64 n.toNat = BitVec.ofInt 64 n := by
  rw [← BitVec.ofInt_natCast, Int.toNat_of_nonneg h]

/-- A command keeps the lengths, or is a `DERIVE` or a `GENALL` with an accepted exponent. -/
theorem exec_sizes {i : Instr} (h : exec i s = .next t) : SizesKept s t ∨
    ∃ n, (i = .derive n ∨ i = .genall n) ∧ 0 ≤ n ∧ n ≤ s.params.nmax ∧ t.regN = BitVec.ofInt 64 n := by
  cases i with
  | derive n =>
    rcases exec_derive_cases h with ⟨-, rfl⟩ | ⟨h0, hn, rfl⟩
    · exact .inl ⟨rfl, rfl, rfl⟩
    · exact .inr ⟨n, .inl rfl, h0, hn, ofNat_toNat_eq_ofInt h0⟩
  | genall n =>
    rcases exec_genall_cases h with ⟨-, rfl⟩ | ⟨h1, hn, rfl⟩
    · exact .inl ⟨rfl, rfl, rfl⟩
    · exact .inr ⟨n, .inr rfl, by omega, hn, ofNat_toNat_eq_ofInt (by omega)⟩
  | genwin => rcases exec_genwin_cases h with ⟨-, rfl⟩ | ⟨-, rfl⟩ <;> exact .inl ⟨rfl, rfl, rfl⟩
  | wsamp idx => rcases exec_wsamp_cases h with ⟨-, rfl⟩ | ⟨-, rfl⟩ <;> exact .inl ⟨rfl, rfl, rfl⟩
  | gentw => cases (exec_gentw s).symm.trans h; exact .inl ⟨rfl, rfl, rfl⟩
  | genrev => cases (exec_genrev s).symm.trans h; exact .inl ⟨rfl, rfl, rfl⟩
  | twsamp idx => cases (exec_twsamp idx s).symm.trans h; exact .inl ⟨rfl, rfl, rfl⟩
  | bitrev idx => cases (exec_bitrev idx s).symm.trans h; exact .inl ⟨rfl, rfl, rfl⟩

end Sizes

/-! ### The fields of `STATUS` (R41) -/

section Status
variable (s : State)

theorem RunState.code_le (r : RunState) : r.code ≤ 2 := by cases r <;> decide

theorem Cause.code_le (c : Cause) : c.code ≤ 3 := by cases c <;> decide

theorem flagBit_eq_toNat (b : Bool) : flagBit b = b.toNat := by cases b <;> rfl

/-- The word as a number; no field carries into the next. -/
theorem State.statusWord_toNat : s.statusWord.toNat =
    s.runState.code + 4 * s.wv.toNat + 8 * s.tv.toNat + 16 * s.rv.toNat + 256 * s.cause.code := by
  have hr := s.runState.code_le
  have hc := s.cause.code_le
  have hw := s.wv.toNat_le
  have ht := s.tv.toNat_le
  have hv := s.rv.toNat_le
  rw [State.statusWord, flagBit_eq_toNat, flagBit_eq_toNat, flagBit_eq_toNat, BitVec.toNat_ofNat, Nat.mod_eq_of_lt]
  omega

/-- A field of the word by its place, its width and its value. -/
theorem State.statusWord_field {start width x : Nat} (h : s.statusWord.toNat / 2 ^ start % 2 ^ width = x) :
    s.statusWord.extractLsb' start width = BitVec.ofNat width x := by
  apply BitVec.eq_of_toNat_eq
  rw [BitVec.extractLsb'_toNat, Nat.shiftRight_eq_div_pow, h, BitVec.toNat_ofNat, ← h, Nat.mod_mod]

theorem State.statusWord_flag {k : Nat} {b : Bool} (h : s.statusWord.toNat / 2 ^ k % 2 = b.toNat) :
    s.statusWord.getLsbD k = b := by
  rw [BitVec.getLsbD, Nat.testBit_eq_decide_div_mod_eq, h]
  cases b <;> rfl

end Status

/-! ### The write of a command (spec/20_memory.md R75) -/

/-- Outside `FAULT` the write of a value that decodes runs the command and is acknowledged. -/
theorem step_cmdWrite_of_command {s t : State} {v : Reg} {ops : List HostOp} {i : Instr}
    (hs : s.script = cmdWrite v :: ops) (hf : s.runState ≠ .fault) (hv : decode v = .command i)
    (hx : exec i { s with script := ops } = .next t) : step s = .next { t with resp := .ack } := by
  have hengine : engine v (s.setScript ops) = .next t := (engine_of_command hv).trans hx
  rw [step_cons hs, hostStep_cmdWrite (s := s.setScript ops) hf, hengine]
  rfl

/-! ### The statements -/

/-- Settles O34: before and after the step the table of the same exponent holds the elements R51 (e) and (f) give. -/
theorem validTablesDoNotChange : Obligations.ValidTablesDoNotChange := by
  unfold Obligations.ValidTablesDoNotChange
  intro s t hs hx hN
  have ht := hs.of_step hx
  have hp := step_params hx
  have hn : t.nVal = s.nVal := congrArg BitVec.toNat hN
  obtain ⟨hL, hM⟩ := hs.lengths_eq ht hn
  refine ⟨fun hv hv' i hi => ?_, fun hv hv' k hk im => ?_, fun hv hv' i hi => ?_⟩
  · rw [hs.winTable hv i hi, ht.winTable hv' i (hL ▸ hi), hp, hL]
  · obtain ⟨hre, him⟩ := hs.twTable hv k hk
    obtain ⟨hre', him'⟩ := ht.twTable hv' k (hM ▸ hk)
    cases im with
    | false => rw [hre, hre', hp, hL]
    | true => rw [him, him', hp, hL]
  · rw [hs.revTable hv i hi, ht.revTable hv' i (hL ▸ hi), hn]

/-- Settles O36: an operation that is no reset only answers, or is a command, and of the commands only `DERIVE` and
`GENALL` with an accepted exponent write the lengths. -/
theorem sizesWrittenOnlyByDeriveGenallReset : Obligations.SizesWrittenOnlyByDeriveGenallReset := by
  unfold Obligations.SizesWrittenOnlyByDeriveGenallReset
  intro s t op ops hs hx
  cases hop : op.resets with
  | true => exact .inr (.inl rfl)
  | false =>
    have hstep := (step_cons hs).symm.trans hx
    rcases hostStep_cases_of_not_resets hop hstep with ⟨r, rfl⟩ | ⟨v, u, rfl, -, hu, rfl⟩
    · exact .inl ⟨rfl, rfl, rfl⟩
    · rcases engine_cases hu with ⟨i, hi, hxi⟩ | ⟨-, -, rfl⟩
      · rcases exec_sizes hxi with hkept | ⟨n, hcmd, h0, hn, hreg⟩
        · exact .inl hkept
        · refine .inr (.inr ⟨v, n, rfl, ?_, h0, hn, hreg⟩)
          rwa [hi, Decoded.command.injEq, Decoded.command.injEq]
      · exact .inl ⟨rfl, rfl, rfl⟩

/-- Settles O37: each command's outcome by its case lemma; a refused access and an operation that is neither a reset nor
a command only answer. -/
theorem flagsFollowTheEventTable : Obligations.FlagsFollowTheEventTable := by
  unfold Obligations.FlagsFollowTheEventTable
  refine ⟨fun i s t _ h => ?_, fun v s t hill h => ?_, fun s t op ops hs hx => ⟨fun hop => ?_, fun hwhy => ?_⟩⟩
  · cases i with
    | derive n =>
      rcases exec_derive_cases h with ⟨-, rfl⟩ | ⟨-, -, rfl⟩
      · exact .inl ⟨rfl, rfl, rfl, rfl⟩
      · exact .inr ⟨rfl, rfl, rfl, rfl⟩
    | genwin =>
      rcases exec_genwin_cases h with ⟨-, rfl⟩ | ⟨-, rfl⟩
      · exact .inl ⟨rfl, rfl, rfl, rfl⟩
      · exact .inr ⟨rfl, rfl, rfl, rfl⟩
    | genall n =>
      rcases exec_genall_cases h with ⟨-, rfl⟩ | ⟨-, -, rfl⟩
      · exact .inl ⟨rfl, rfl, rfl, rfl⟩
      · exact .inr ⟨rfl, rfl, rfl, rfl⟩
    | wsamp idx =>
      rcases exec_wsamp_cases h with ⟨-, rfl⟩ | ⟨-, rfl⟩
      · exact .inl ⟨rfl, rfl, rfl, rfl⟩
      · exact .inr ⟨rfl, rfl, rfl, rfl⟩
    | gentw => cases (exec_gentw s).symm.trans h; exact .inr ⟨rfl, rfl, rfl, rfl⟩
    | genrev => cases (exec_genrev s).symm.trans h; exact .inr ⟨rfl, rfl, rfl, rfl⟩
    | twsamp idx => cases (exec_twsamp idx s).symm.trans h; exact .inr ⟨rfl, rfl, rfl, rfl⟩
    | bitrev idx => cases (exec_bitrev idx s).symm.trans h; exact .inr ⟨rfl, rfl, rfl, rfl⟩
  · rcases engine_cases h with ⟨i, hi, -⟩ | ⟨-, -, rfl⟩
    · exact absurd hi (hill i)
    · exact ⟨rfl, rfl, rfl, rfl⟩
  · obtain ⟨r, hr⟩ := hostStep_of_resets hop (s.setScript ops)
    cases (hr.symm.trans (step_cons hs).symm).trans hx
    exact ⟨rfl, rfl, rfl, rfl⟩
  · have hstep : hostStep op (s.setScript ops) = .next t := (step_cons hs).symm.trans hx
    rcases hwhy with hrefused | ⟨hop, hcmd⟩
    · cases (hostStep_of_refuses ((resp_eq_accessFault_iff hstep).mp hrefused)).symm.trans hstep
      exact ⟨rfl, rfl, rfl, rfl⟩
    · rcases hostStep_cases_of_not_resets hop hstep with ⟨r, rfl⟩ | ⟨v, _, hv, -⟩
      · exact ⟨rfl, rfl, rfl, rfl⟩
      · exact absurd hv (hcmd v)

/-- Settles O38: the sampler computes the element R51 (e) and (f) give the valid table; a valid window has `L >= 2`. -/
theorem samplersAgreeWithTables : Obligations.SamplersAgreeWithTables := by
  unfold Obligations.SamplersAgreeWithTables
  intro idx s h
  refine ⟨fun hv hi => ⟨_, exec_wsamp_of_two_le (h.two_le_lVal_of_wv hv) idx, h.winTable hv idx hi⟩,
    fun hv hi => ?_, fun hv hi => ⟨_, exec_bitrev idx s, h.revTable hv idx hi⟩⟩
  obtain ⟨hre, him⟩ := h.twTable hv idx hi
  exact ⟨_, exec_twsamp idx s, hre, him⟩

/-- Settles O6: outside `FAULT` the write of a value that decodes is the acknowledged `exec`; `withFetchWord` puts such
a write in front of the script. -/
theorem stepRunsDecodedCommand : Obligations.StepRunsDecodedCommand := by
  unfold Obligations.StepRunsDecodedCommand
  refine ⟨fun s v ops i t => step_cmdWrite_of_command, fun s w i t hf hw hx => ?_⟩
  refine step_cmdWrite_of_command (s := s.withFetchWord 32 w) (v := tableWordValue 32 w) rfl hf ?_ hx
  rw [decodeTableWord] at hw
  split at hw
  next hv => cases hw; exact hv
  next => cases hw

/-- Settles O11: a read of a register has the register's value in every state, and `State.raise` changes no flag, no
length and no cell, on which alone a table read depends. -/
theorem readsStillWorkInFault : Obligations.ReadsStillWorkInFault := by
  unfold Obligations.ReadsStillWorkInFault
  refine fun s c v => ⟨fun r => portRead_csrAddr r _, fun addr width hr => ?_⟩
  cases hs : shapeOk addr width with
  | false => simp [State.portRead, hs]
  | true =>
    have hlt := regionOf_lt addr
    interval_cases hreg : regionOf addr
    · exact absurd rfl hr
    · rw [portRead_win hs hreg, portRead_win hs hreg]
      rfl
    · rw [portRead_tw hs hreg, portRead_tw hs hreg]
      rfl
    · rw [portRead_rev hs hreg, portRead_rev hs hreg]
      rfl

/-- Settles O41: the read answers `State.csrValue`, and `NMAX` fits the five bits of `CAP`. -/
theorem registerReads : Obligations.RegisterReads := by
  unfold Obligations.RegisterReads
  intro s c ops hp hs
  rw [step_cons hs, hostStep, portRead_csrAddr]
  have hcap : (BitVec.ofNat 5 s.params.nmax).setWidth 64 = BitVec.ofNat 64 s.params.nmax := by
    have := (params_wf_iff.mp hp).2
    apply BitVec.eq_of_toNat_eq
    rw [BitVec.toNat_setWidth, BitVec.toNat_ofNat, BitVec.toNat_ofNat]
    omega
  cases c with
  | cap => rw [← hcap]; rfl
  | cmd | status | ctrl | exp | inlen | outlen | res0 | res1 | finfo => rfl

/-- Settles O40: each field is a quotient and remainder of the word by powers of two. -/
theorem statusWordFields : Obligations.StatusWordFields := by
  unfold Obligations.StatusWordFields
  intro s
  have hword := s.statusWord_toNat
  have hr := s.runState.code_le
  have hc := s.cause.code_le
  have hw := s.wv.toNat_le
  have ht := s.tv.toNat_le
  have hv := s.rv.toNat_le
  have hstate := s.statusWord_field (start := 0) (width := 2) (x := s.runState.code) (by omega)
  have hcause := s.statusWord_field (start := 8) (width := 4) (x := s.cause.code) (by omega)
  refine ⟨?_, s.statusWord_flag (by omega), s.statusWord_flag (by omega), s.statusWord_flag (by omega),
    s.statusWord_field (x := 0) (by omega), ?_, s.statusWord_field (x := 0) (by omega)⟩
  · rw [hstate]
    cases s.runState <;> rfl
  · rw [hcause]
    cases s.cause <;> rfl

end Sys2Proof.Machine
end

section
/-! SUPPORT and PROOFS for the reference numerics (spec/40_numerics.md R121 to R127): the ideal values at special
places, their symmetries and periods, that a reference value is the integer nearest to its ideal value, and what
follows from `NumOK`. -/

namespace Sys2Proof.Machine

/-! ### The ideal twiddle at special places, its symmetries and its period (R121, R125) -/

section IdealTwiddle
variable {d i k : Nat}

/-- A part of a turn in other terms. -/
theorem twExact_mul (d a : Nat) {j : Nat} (hj : 1 ≤ j) :
    twReExact (d * j) (a * j) = twReExact d a ∧ twImExact (d * j) (a * j) = twImExact d a := by
  have hj0 : (j : ℝ) ≠ 0 := Nat.cast_ne_zero.mpr (Nat.one_le_iff_ne_zero.mp hj)
  have hangle : 2 * Real.pi * ((a * j : Nat) : ℝ) / ((d * j : Nat) : ℝ) = 2 * Real.pi * a / d := by
    push_cast
    rw [← mul_assoc, mul_div_mul_right _ _ hj0]
  rw [twReExact, twImExact, hangle]
  exact ⟨rfl, rfl⟩

theorem twExact_zero (L : Nat) : twReExact L 0 = 1 ∧ twImExact L 0 = 0 := by
  simp [twReExact, twImExact]

theorem twReExact_third : twReExact 3 1 = -1 / 2 ∧ twReExact 3 2 = -1 / 2 := by
  have h1 : 2 * Real.pi * ((1 : Nat) : ℝ) / ((3 : Nat) : ℝ) = Real.pi - Real.pi / 3 := by push_cast; ring
  have h2 : 2 * Real.pi * ((2 : Nat) : ℝ) / ((3 : Nat) : ℝ) = Real.pi / 3 + Real.pi := by push_cast; ring
  rw [twReExact, twReExact, h1, h2, Real.cos_pi_sub, Real.cos_add_pi, Real.cos_pi_div_three, neg_div]
  exact ⟨rfl, rfl⟩

theorem twExact_quarter : twReExact 4 1 = 0 ∧ twImExact 4 1 = 1 := by
  have h : 2 * Real.pi * ((1 : Nat) : ℝ) / ((4 : Nat) : ℝ) = Real.pi / 2 := by push_cast; ring
  rw [twReExact, twImExact, h]
  exact ⟨Real.cos_pi_div_two, Real.sin_pi_div_two⟩

theorem twExact_eighth : twReExact 8 1 = √2 / 2 ∧ twImExact 8 1 = √2 / 2 := by
  have h : 2 * Real.pi * ((1 : Nat) : ℝ) / ((8 : Nat) : ℝ) = Real.pi / 4 := by push_cast; ring
  rw [twReExact, twImExact, h]
  exact ⟨Real.cos_pi_div_four, Real.sin_pi_div_four⟩

/-- `k` steps before half a turn: the cosine changes its sign, the sine does not. -/
theorem twExact_half_sub {M : Nat} (hk : k ≤ M) (hM : 1 ≤ M) :
    twReExact (2 * M) (M - k) = -twReExact (2 * M) k ∧ twImExact (2 * M) (M - k) = twImExact (2 * M) k := by
  have hM0 : (M : ℝ) ≠ 0 := Nat.cast_ne_zero.mpr (Nat.one_le_iff_ne_zero.mp hM)
  have hangle : 2 * Real.pi * ((M - k : Nat) : ℝ) / ((2 * M : Nat) : ℝ) =
      Real.pi - 2 * Real.pi * k / ((2 * M : Nat) : ℝ) := by
    rw [Nat.cast_sub hk]
    push_cast
    field_simp
  rw [twReExact, twImExact, hangle, Real.cos_pi_sub, Real.sin_pi_sub]
  exact ⟨rfl, rfl⟩

theorem twExact_three_eighths : twReExact 8 3 = -(√2 / 2) ∧ twImExact 8 3 = √2 / 2 := by
  obtain ⟨hre, him⟩ := twExact_eighth
  obtain ⟨hre', him'⟩ := twExact_half_sub (k := 1) (M := 4) (by norm_num) (by norm_num)
  exact ⟨hre'.trans (congrArg Neg.neg hre), him'.trans him⟩

/-- The cosine of the multiples does not see the direction of the turn. -/
theorem twReExact_mul_sub (m : Nat) (hd : 1 ≤ d) (hi : i ≤ d) : twReExact d (m * (d - i)) = twReExact d (m * i) := by
  have hd0 : (d : ℝ) ≠ 0 := Nat.cast_ne_zero.mpr (Nat.one_le_iff_ne_zero.mp hd)
  have hangle : 2 * Real.pi * ((m * (d - i) : Nat) : ℝ) / d =
      m * (2 * Real.pi) - 2 * Real.pi * ((m * i : Nat) : ℝ) / d := by
    rw [Nat.cast_mul, Nat.cast_sub hi]
    push_cast
    field_simp
  rw [twReExact, hangle, Real.cos_nat_mul_two_pi_sub, twReExact]

end IdealTwiddle

/-! ### The ideal window at special places, its symmetry and its period -/

section IdealWindow
variable {L i : Nat}

theorem wExact_zero (hL : 1 ≤ L) : wExact L 0 = 0.00006 := by
  obtain ⟨hre, -⟩ := twExact_zero (L - 1)
  rw [wExact_eq_twReExact hL, hre]
  norm_num

theorem wExact_mod (hL : 2 ≤ L) (i : Nat) : wExact L (i % (L - 1)) = wExact L i := by
  have hmod (m : Nat) : twReExact (L - 1) (m * (i % (L - 1))) = twReExact (L - 1) (m * i) := by
    rw [← twReExact_mod (by omega) (m * (i % (L - 1))), Nat.mul_mod_mod, twReExact_mod (by omega)]
  rw [wExact_eq_twReExact (by omega), wExact_eq_twReExact (by omega), hmod, hmod, twReExact_mod (by omega)]

theorem wExact_sub (hL : 2 ≤ L) (hi : i ≤ L - 1) : wExact L (L - 1 - i) = wExact L i := by
  have hsub := twReExact_mul_sub 1 (d := L - 1) (by omega) hi
  rw [one_mul, one_mul] at hsub
  rw [wExact_eq_twReExact (by omega), wExact_eq_twReExact (by omega), hsub, twReExact_mul_sub 2 (by omega) hi,
    twReExact_mul_sub 3 (by omega) hi]

/-- The two end points are the same. -/
theorem wExact_last (hL : 2 ≤ L) : wExact L (L - 1) = wExact L 0 := by
  rw [← wExact_sub hL le_rfl, Nat.sub_self]

theorem wExact_third (hi : 1 ≤ i) : wExact (3 * i + 1) i = 0.520575 := by
  have hre (a : Nat) : twReExact (3 * i) (a * i) = twReExact 3 a := (twExact_mul 3 a hi).1
  have h1 := hre 1
  rw [one_mul] at h1
  rw [wExact_eq_twReExact (by omega), Nat.add_sub_cancel, h1, hre 2, hre 3, ← twReExact_mod (by omega) 3, Nat.mod_self,
    (twExact_zero 3).1, twReExact_third.1, twReExact_third.2]
  norm_num

/-- Two thirds of the way stand as far from the end as one third from the start. -/
theorem wExact_two_thirds (hi : 1 ≤ i) : wExact (3 * i + 1) (2 * i) = 0.520575 := by
  rw [← wExact_third hi, ← wExact_sub (i := i) (by omega) (by omega)]
  congr 1
  omega

end IdealWindow

/-! ### A reference value is the integer nearest to its ideal value (R123, R124) -/

section Reference
variable {L i k : Nat} {m : Int}

theorem refWin_eq_of_near (hL : 2 ≤ L) (h : |wExact L i * SCALE - m| < 1 / 2) : refWin L i = m :=
  (q10Real_eq_of_near (refWin_near hL i)).symm.trans (q10Real_eq_of_near h)

theorem refTwre_eq_of_near (hL : 1 ≤ L) (h : |twReExact L k * SCALE - m| < 1 / 2) : refTwre L k = m :=
  (q10Real_eq_of_near (refTwre_near hL k)).symm.trans (q10Real_eq_of_near h)

theorem refTwim_eq_of_near (hL : 1 ≤ L) (h : |twImExact L k * SCALE - m| < 1 / 2) : refTwim L k = m :=
  (q10Real_eq_of_near (refTwim_near hL k)).symm.trans (q10Real_eq_of_near h)

/-- Equal ideal samples give equal reference samples. -/
theorem refWin_congr {L' i' : Nat} (hL : 2 ≤ L) (hL' : 2 ≤ L') (h : wExact L i = wExact L' i') :
    refWin L i = refWin L' i' :=
  refWin_eq_of_near hL (h ▸ refWin_near hL' i')

/-- The same part of a turn in other terms gives the same reference values. -/
theorem refTw_mul {d j : Nat} (hd : 1 ≤ d) (hj : 1 ≤ j) (a : Nat) :
    refTwre (d * j) (a * j) = refTwre d a ∧ refTwim (d * j) (a * j) = refTwim d a := by
  obtain ⟨hre, him⟩ := twExact_mul d a hj
  have hdj : 1 ≤ d * j := Nat.mul_pos hd hj
  exact ⟨refTwre_eq_of_near hdj (hre ▸ refTwre_near hd a), refTwim_eq_of_near hdj (him ▸ refTwim_near hd a)⟩

/-- The quantised `√2 / 2` (R125). -/
theorem half_sqrt_two_near : |√2 / 2 * SCALE - (7071067812 : Int)| < 1 / 2 := by
  have hlow : 1.4142135623 < √2 := Real.lt_sqrt_of_sq_lt (by norm_num)
  have hhigh : √2 < 1.4142135625 := (Real.sqrt_lt' (by norm_num)).mpr (by norm_num)
  rw [scale_cast, abs_lt]
  push_cast
  constructor <;> linarith

theorem neg_near {v : ℝ} (h : |v * SCALE - m| < 1 / 2) : |-v * SCALE - (-m : Int)| < 1 / 2 := by
  rwa [Int.cast_neg, neg_mul, neg_sub_neg, abs_sub_comm]

theorem refTw_zero (hL : 1 ≤ L) : refTwre L 0 = SCALE ∧ refTwim L 0 = 0 := by
  obtain ⟨hre, him⟩ := twExact_zero L
  exact ⟨refTwre_eq_of_near hL (by rw [hre]; norm_num), refTwim_eq_of_near hL (by rw [him]; norm_num)⟩

theorem refTw_quarter : refTwre 4 1 = 0 ∧ refTwim 4 1 = SCALE := by
  obtain ⟨hre, him⟩ := twExact_quarter
  exact ⟨refTwre_eq_of_near (by norm_num) (by rw [hre]; norm_num),
    refTwim_eq_of_near (by norm_num) (by rw [him]; norm_num)⟩

theorem refTw_eighth : refTwre 8 1 = 7071067812 ∧ refTwim 8 1 = 7071067812 := by
  obtain ⟨hre, him⟩ := twExact_eighth
  exact ⟨refTwre_eq_of_near (by norm_num) (hre ▸ half_sqrt_two_near),
    refTwim_eq_of_near (by norm_num) (him ▸ half_sqrt_two_near)⟩

theorem refTw_three_eighths : refTwre 8 3 = -7071067812 ∧ refTwim 8 3 = 7071067812 := by
  obtain ⟨hre, him⟩ := twExact_three_eighths
  exact ⟨refTwre_eq_of_near (by norm_num) (hre ▸ neg_near half_sqrt_two_near),
    refTwim_eq_of_near (by norm_num) (him ▸ half_sqrt_two_near)⟩

/-- A positive distance from every tie leaves no tie. -/
theorem ne_tie_of_distance {v : ℝ} {e : Nat} (h : 1 ≤ |2 * SCALE * v - (2 * m + 1)| * 2 ^ e) :
    SCALE * v ≠ m + 1 / 2 := by
  intro htie
  have hzero : 2 * SCALE * v - (2 * m + 1) = 0 := by linarith
  rw [hzero, abs_zero, zero_mul] at h
  linarith

end Reference

/-! ### The fixed-point error in terms of the value -/

/-- An error in units of the last place, over the unit. -/
theorem abs_div_sub_le {a v e c P : ℝ} (hc : 0 < c) (hP : 0 < P) (h : |a - P * (c * v)| ≤ e * c) :
    |a / (c * P) - v| ≤ e / P := by
  have hscaled : a / (c * P) - v = (a - P * (c * v)) / (c * P) := by field_simp
  rw [hscaled, abs_div, abs_of_pos (mul_pos hc hP), div_le_div_iff₀ (mul_pos hc hP) hP, ← mul_assoc e]
  exact mul_le_mul_of_nonneg_right h hP.le

/-! ### What follows from `NumOK` (R127) -/

section Tolerance
variable {x y c s : ℝ}

/-- A pair within 3 units of a scaled point of the unit circle: by Cauchy and Schwarz the errors along the radius are at
most `3 * √2 < 9 / 2` units. -/
theorem circle_near (hcs : c ^ 2 + s ^ 2 = 1) (hx : |x - SCALE * c| ≤ 3) (hy : |y - SCALE * s| ≤ 3) :
    |(x / SCALE) ^ 2 + (y / SCALE) ^ 2 - 1| < 1 / 10 ^ 9 := by
  obtain ⟨a, rfl⟩ : ∃ a, x = SCALE * c + a := ⟨x - SCALE * c, by ring⟩
  obtain ⟨b, rfl⟩ : ∃ b, y = SCALE * s + b := ⟨y - SCALE * s, by ring⟩
  rw [add_sub_cancel_left] at hx hy
  have ha : a ^ 2 ≤ 3 ^ 2 := sq_le_sq' (abs_le.mp hx).1 (abs_le.mp hx).2
  have hb : b ^ 2 ≤ 3 ^ 2 := sq_le_sq' (abs_le.mp hy).1 (abs_le.mp hy).2
  have hradial : |c * a + s * b| ≤ 9 / 2 := by
    refine abs_le_of_sq_le_sq ?_ (by norm_num)
    have hcauchy : (c * a + s * b) ^ 2 + (c * b - s * a) ^ 2 = (c ^ 2 + s ^ 2) * (a ^ 2 + b ^ 2) := by ring
    rw [hcs, one_mul] at hcauchy
    linarith [sq_nonneg (c * b - s * a)]
  have hexpand : ((SCALE * c + a) / SCALE) ^ 2 + ((SCALE * s + b) / SCALE) ^ 2 - 1 =
      (2 * (c * a + s * b) * 10000000000 + (a ^ 2 + b ^ 2)) / 10000000000 ^ 2 := by
    rw [scale_cast, ← hcs]
    field_simp
    ring
  rw [hexpand, abs_lt]
  obtain ⟨hlow, hhigh⟩ := abs_le.mp hradial
  constructor
  · rw [lt_div_iff₀ (by norm_num)]
    linarith [sq_nonneg a, sq_nonneg b]
  · rw [div_lt_iff₀ (by norm_num)]
    linarith

/-- Two values within 3 units of one scaled value. -/
theorem quotients_near (hx : |x - SCALE * c| ≤ 3) (hy : |y - SCALE * c| ≤ 3) :
    |x / SCALE - y / SCALE| < 1 / 10 ^ 9 := by
  rw [scale_cast] at *
  rw [abs_le] at hx hy
  rw [abs_lt]
  constructor <;> linarith

end Tolerance

/-! ### The statements -/

/-- Settles O52: `winFix_near` and `cosTurn_near`, over the unit of the last place; the sine is a cosine. -/
theorem fixedPointIsWithinBound : Obligations.FixedPointIsWithinBound := by
  unfold Obligations.FixedPointIsWithinBound
  intro p L i hp
  have hP : (0 : ℝ) < 2 ^ p := by positivity
  have hcos {d : Nat} (hd : 1 ≤ d) (a : Nat) : |(cosTurn p a d : ℝ) / 2 ^ p - twReExact d a| ≤ turnError / 2 ^ p := by
    simpa using abs_div_sub_le one_pos hP (by simpa using cosTurn_near hp hd a)
  refine ⟨fun hL => ?_, fun hL => ⟨hcos hL i, ?_⟩⟩
  · simpa using abs_div_sub_le (by norm_num) hP (winFix_near hp hL i)
  · rw [twImExact_eq_twReExact hL]
    exact hcos (by omega) _

/-- Settles O54: the reference values are nearer than half a unit to the ideal ones. -/
theorem referenceSatisfiesNumOK : Obligations.ReferenceSatisfiesNumOK := by
  unfold Obligations.ReferenceSatisfiesNumOK
  intro p eps hnil hlow hhigh
  have hweaken {v : ℝ} {q : Int} (h : |v * SCALE - q| < 1 / 2) : |(q : ℝ) - SCALE * v| ≤ eps := by
    rw [abs_sub_comm, mul_comm]
    exact h.le.trans hlow
  refine ⟨hlow, hhigh, fun N idx _ _ => ?_⟩
  simp only [numWin, numTwre, numTwim, numDelta_of_nil hnil, add_zero]
  have hL : 1 ≤ 2 ^ N := Nat.one_le_two_pow
  exact ⟨fun hL2 => hweaken (refWin_near hL2 idx), hweaken (refTwre_near hL idx), hweaken (refTwim_near hL idx)⟩

/-- Settles O55: the ideal pair lies on the unit circle and the ideal end points are equal; `EPSQ` is at most 3. -/
theorem toleranceProperties : Obligations.ToleranceProperties := by
  unfold Obligations.ToleranceProperties
  rintro p eps ⟨-, heps, hall⟩ hp N hN
  refine ⟨fun k hk => ?_, fun h1 => ?_⟩
  · obtain ⟨-, hre, him⟩ := hall N k hN hk
    exact circle_near (Real.cos_sq_add_sin_sq _) (hre.trans heps) (him.trans heps)
  · have hL : 2 ≤ 2 ^ N := Nat.le_self_pow (Nat.one_le_iff_ne_zero.mp h1) 2
    have hlen : 2 ^ N ≤ 2 ^ 24 := Nat.pow_le_pow_right two_pos (hN.trans (params_wf_iff.mp hp).2)
    obtain ⟨hfirst, -⟩ := hall N 0 hN (by norm_num)
    obtain ⟨hlast, -⟩ := hall N (2 ^ N - 1) hN (by omega)
    have hlast := hlast hL
    rw [wExact_last hL] at hlast
    exact quotients_near ((hfirst hL).trans heps) (hlast.trans heps)

/-- Settles O57: at each special place the ideal value is known, and the value named is the integer nearest to it; the
distance from the ties is positive. -/
theorem referenceSpecialValues : Obligations.ReferenceSpecialValues := by
  unfold Obligations.ReferenceSpecialValues
  refine ⟨fun L hL => ?_, fun i hi => ?_, fun L hL => refTw_zero hL, fun j hj => ?_, fun j hj => ?_,
    fun L i m => ⟨fun hL => ?_, fun hL => ⟨?_, ?_⟩⟩⟩
  · have hzero : refWin L 0 = 600000 := refWin_eq_of_near hL (by rw [wExact_zero (by omega), scale_cast]; norm_num)
    exact ⟨hzero, (refWin_congr hL hL (wExact_last hL)).trans hzero⟩
  · exact ⟨refWin_eq_of_near (by omega) (by rw [wExact_third hi, scale_cast]; norm_num),
      refWin_eq_of_near (by omega) (by rw [wExact_two_thirds hi, scale_cast]; norm_num)⟩
  · obtain ⟨hre, him⟩ := refTw_quarter
    have hmul := refTw_mul (d := 4) (by norm_num) hj 1
    rwa [one_mul, hre, him] at hmul
  · obtain ⟨hre, him⟩ := refTw_eighth
    obtain ⟨hre3, him3⟩ := refTw_three_eighths
    have hmul := refTw_mul (d := 8) (by norm_num) hj 1
    have hmul3 := refTw_mul (d := 8) (by norm_num) hj 3
    rw [one_mul, hre, him] at hmul
    rw [hre3, him3] at hmul3
    exact ⟨hmul.1, hmul.2, hmul3⟩
  · exact ne_tie_of_distance (wExact_tie_distance hL i m)
  · exact ne_tie_of_distance (twReExact_tie_distance hL i m)
  · rw [twImExact_eq_twReExact hL]
    exact ne_tie_of_distance (twReExact_tie_distance (by omega) _ m)

/-- Settles O58: equal ideal values have the same nearest integer, and opposite ones opposite integers. -/
theorem referenceSymmetries : Obligations.ReferenceSymmetries := by
  unfold Obligations.ReferenceSymmetries
  refine ⟨fun L i hL hi => refWin_congr hL hL (wExact_sub hL hi),
    fun L i hL => refWin_congr hL hL (wExact_mod hL i).symm,
    fun M k h1 hk => ?_, fun L k _ => ⟨(refTwre_mod L k).symm, (refTwim_mod L k).symm⟩⟩
  obtain ⟨hre, him⟩ := twExact_half_sub hk.le (by omega)
  exact ⟨refTwre_eq_of_near (by omega) (hre ▸ neg_near (refTwre_near (by omega) k)),
    refTwim_eq_of_near (by omega) (him ▸ refTwim_near (by omega) k)⟩

end Sys2Proof.Machine
end
